-- ==== Sys2Proof/Word.lean ====
section
/-! DEFINITION. The widths the spec names (00_scope.md R8): u8, u16, u32. -/

namespace Sys2Proof

/-- u8: an operand of a command, an input byte, a GridSample index. -/
abbrev Byte := BitVec 8

/-- u16: a density, a GridSample base or fraction, an output. -/
abbrev U16 := BitVec 16

/-- u32: a register of the aperture, a command word. -/
abbrev Word := BitVec 32

end Sys2Proof
end

