-- ==== Sys2Proof/Syntax.lean ====
section
/-! DEFINITION. The commands of spec/opcode_table.json, one constructor a row (30_encoding.md R57). -/

namespace Sys2Proof

/-- A command. The operands are the fields A, B, C of the word, unsigned 8-bit values (30_encoding.md R56). -/
inductive Instr where
  /-- NOP (40_control.md R64). -/
  | nop
  /-- INTERP r, g, b: one input byte per channel (43_interp.md R83). -/
  | interp (r g b : Byte)
  /-- LOOKUP x, y, z: grid coordinates on axes R, G, B (42_lut_access.md R73). -/
  | lookup (x y z : Byte)
  /-- BUILD (41_sampler.md R68). -/
  | build
  deriving DecidableEq, Repr

end Sys2Proof
end

