-- ==== Sys2Proof/WellFormed.lean ====
section
/-! DEFINITION. Which commands and which command words are well formed (30_encoding.md R56, R57, R59).
The decoder is written from R58; the opcode map of R57 stands here on its own, as a second reading of the encoding. -/

namespace Sys2Proof

/-- Every term of Instr is a command: an operand is 8 bits wide by its type, and every INTERP and LOOKUP operand value
0 to 255 is a legal encoding (R56, R59). An out-of-range LOOKUP coordinate is an execution error, not an ill-formed
command. -/
def Instr.wellFormed : Instr → Bool
  | .nop => true
  | .interp _ _ _ => true
  | .lookup _ _ _ => true
  | .build => true

/-- A row of the opcode map: a word belongs to it if `w &&& mask = pattern` (R57). -/
structure OpcodeRow where
  mnemonic : String
  pattern : Word
  mask : Word
  deriving DecidableEq, Repr

/-- The opcode map of 30_encoding.md R57. -/
def opcodeMap : List OpcodeRow :=
  [⟨"NOP", 0x00000000, 0xFFFFFFFF⟩, ⟨"INTERP", 0x10000000, 0xFF000000⟩,
   ⟨"LOOKUP", 0x20000000, 0xFF000000⟩, ⟨"BUILD", 0x30000000, 0xFFFFFFFF⟩]

/-- The word belongs to the row. -/
def OpcodeRow.accepts (row : OpcodeRow) (w : Word) : Bool :=
  w &&& row.mask == row.pattern

/-- The word is a command: it matches a row of the opcode map (R57). -/
def wordWellFormed (w : Word) : Bool :=
  opcodeMap.any (·.accepts w)

end Sys2Proof
end

