-- ==== Sys2Proof/Decode.lean ====
section
/-! DEFINITION. The command decoder and encoder (30_encoding.md R54 to R60). -/

namespace Sys2Proof

/-- Why a word is no command (R59). The spec has one ILLEGAL; the three causes it lists are named here
(DESIGN CHOICE, log entry 13, safe: executing any of them is the same). -/
inductive Illegal where
  /-- RSV is not 0. -/
  | reservedField
  /-- OP is in 0x4 to 0xF. -/
  | noSuchOpcode
  /-- A NOP or BUILD word whose A, B or C is not 0. -/
  | operandsNotZero
  deriving DecidableEq, Repr

/-- OP, bits [31:28] (R55). -/
def fieldOP (w : Word) : BitVec 4 := w.extractLsb' 28 4

/-- RSV, bits [27:24] (R55). -/
def fieldRSV (w : Word) : BitVec 4 := w.extractLsb' 24 4

/-- A, bits [23:16] (R55). -/
def fieldA (w : Word) : Byte := w.extractLsb' 16 8

/-- B, bits [15:8] (R55). -/
def fieldB (w : Word) : Byte := w.extractLsb' 8 8

/-- C, bits [7:0] (R55). -/
def fieldC (w : Word) : Byte := w.extractLsb' 0 8

/-- A command without operands: A, B and C must be 0 (R56, R58). -/
def decodeBare (w : Word) (i : Instr) : Except Illegal Instr :=
  if w.extractLsb' 0 24 = 0 then .ok i else .error .operandsNotZero

/-- Decode, a total function on every 32-bit word (R58). -/
def decode (w : Word) : Except Illegal Instr :=
  if fieldRSV w ≠ 0 then .error .reservedField
  else if fieldOP w = 0x0 then decodeBare w .nop
  else if fieldOP w = 0x1 then .ok (.interp (fieldA w) (fieldB w) (fieldC w))
  else if fieldOP w = 0x2 then .ok (.lookup (fieldA w) (fieldB w) (fieldC w))
  else if fieldOP w = 0x3 then decodeBare w .build
  else .error .noSuchOpcode

/-- The word with the fields OP, RSV = 0, A, B, C, most significant first (R55). -/
def packWord (op : BitVec 4) (a b c : Byte) : Word :=
  (op ++ (0 : BitVec 4) ++ a ++ b ++ c : BitVec (4 + 4 + 8 + 8 + 8))

/-- The word of a command (R57, R60). -/
def encode : Instr → Word
  | .nop => packWord 0x0 0 0 0
  | .interp r g b => packWord 0x1 r g b
  | .lookup x y z => packWord 0x2 x y z
  | .build => packWord 0x3 0 0 0

/-- The command word that an opcode-table row of `nbits` bits with the bits `w` stands for: the bits above `nbits` are 0,
and no command is longer than 32 bits (R54; log entry 14). -/
def tableWord (nbits w : Nat) : Word :=
  BitVec.ofNat 32 (w % 2 ^ nbits)

/-- What the decoder reads from an opcode-table row's word. -/
def decodeTableWord (nbits w : Nat) : Option Instr :=
  (decode (tableWord nbits w)).toOption

end Sys2Proof
end

