-- ==== Sys2Proof/Config.lean ====
section
/-! DEFINITION. What an implementation of the block fixes (00_scope.md R6), and the one free value. -/

namespace Sys2Proof

/-- ARITH_MODE: what the datapath does when the sum leaves the 32-bit signed range (00_scope.md R6, 43_interp.md R80). -/
inductive ArithMode where
  | wrap32
  | wide
  deriving DecidableEq, Repr

/-- The parameters of 00_scope.md R6 and 20_memory.md R37.
DESIGN CHOICE (log entry 2, safe): they are carried in State, which no step writes, so that one model is every
implementation at once. -/
structure Params where
  /-- MAX_OUT, 1 to 64. -/
  maxOut : Nat
  /-- MAX_GRID, 1 to 256. -/
  maxGrid : Nat
  /-- DENS_DEPTH, 1 to 65536. -/
  densDepth : Nat
  /-- ARITH_MODE. -/
  arith : ArithMode
  /-- BASE_ADDR (OPEN): where the aperture begins in the host's address space. -/
  baseAddr : Nat
  deriving DecidableEq, Repr

/-- The defaults of 00_scope.md R6. BASE_ADDR has none in the spec: DESIGN CHOICE 0 (log entry 2). -/
def Params.default : Params where
  maxOut := 16
  maxGrid := 256
  densDepth := 65536
  arith := .wrap32
  baseAddr := 0

/-- The ranges 00_scope.md R6 gives the parameters. -/
abbrev Params.Legal (p : Params) : Prop :=
  (1 ≤ p.maxOut ∧ p.maxOut ≤ 64) ∧ (1 ≤ p.maxGrid ∧ p.maxGrid ≤ 256) ∧ (1 ≤ p.densDepth ∧ p.densDepth ≤ 65536)

/-- The unconstrained value a host read of an unwritten RAM entry returns, one for each draw (10_state.md R36, D35).
It has no body: no proof can learn a value of it (log entry 8). -/
opaque Config.freeHostRead : Nat → BitVec 32

end Sys2Proof
end

