-- ==== Sys2Proof/Machine/State.lean ====
section
/-! DEFINITION. The state of the block (10_state.md R14), the events its host and platform put to it, the reasons a
run can stop, and the state after reset (10_state.md R35). -/

namespace Sys2Proof.Machine

/-- The three input channels and grid axes, in order (10_state.md R27, R30). -/
inductive Axis where
  | r
  | g
  | b
  deriving DecidableEq, Repr

/-- An entry of a GridSample array (10_state.md R30). -/
structure GridSample where
  /-- The index of the lower grid vertex. -/
  base : U16
  /-- The position toward the next vertex, in units of 2^-16 of one grid step; unsigned (C7). -/
  frac : U16
  deriving DecidableEq, Repr

/-- An entry of one of the block's RAMs (10_state.md R30, R33). -/
inductive RamEntry where
  | gs (a : Axis) (i : Byte)
  | dens (j : Nat)
  deriving DecidableEq, Repr

/-- The hardware error codes a command can raise (60_exceptions.md R86). -/
inductive ErrorCode where
  | gridAccessOutOfRange
  | illegalCommand
  | badConfig
  deriving DecidableEq, Repr

/-- The reasons the machine stops. A hardware error is no fault: it is a next state (60_exceptions.md R90). -/
inductive Fault where
  /-- UNINIT_READ (10_state.md R36): INTERP or LOOKUP would read an entry of GS_R, GS_G, GS_B or DENS that nothing has
  written since reset. Names the command and the entry. Safe: the hardware goes on with some value. -/
  | uninitRead (cmd : Instr) (entry : RamEntry)
  deriving DecidableEq, Repr

/-- The reasons a step has no meaning. -/
inductive Refusal where
  /-- Raised by no arm of exec: every command has its meaning. Safe. -/
  | notModelled (mnemonic : String)
  /-- Raised by a host access that is not 32 bits wide at a multiple of 4 (20_memory.md R39, BUS_SUBWORD). Safe: the
  platform bus does something. -/
  | busSubword (addr width : Nat)
  /-- Raised by a host access at an address outside the block's aperture (20_memory.md R37, R41, R42). Safe. -/
  | outsideAperture (addr : Nat)
  deriving DecidableEq, Repr

/-- What the outside puts to the block. Addresses are the host's; the aperture begins at BASE_ADDR (20_memory.md R37). -/
inductive BusEvent where
  /-- A host read of `width` bytes. -/
  | read (addr width : Nat)
  /-- A host write of `width` bytes; an admitted one carries 32 bits (log entry 18). -/
  | write (addr width : Nat) (v : Word)
  /-- The platform asserts reset (70_reset_and_hazards.md R100). -/
  | reset
  deriving DecidableEq, Repr

/-- The bytes of the RAMs that have been written, keyed by byte offset in the aperture (20_memory.md R37, R38).
Canonical form: offsets strictly rising. An offset not listed holds no value (10_state.md R36; log entry 9). -/
abbrev Memory := List Host.Cell

/-- What a byte of memory that is not listed reads as: no value (10_state.md R36). -/
def Memory.unlisted : Option Byte := none

/-- The canonical form: offsets strictly rising. A listed byte holds a value, so it never equals `Memory.unlisted`. -/
abbrev Memory.wf (m : Memory) : Prop := m.Pairwise (fun c d => c.1 < d.1)

/-- The state. The fields `sat` to `mem` are the block's, exactly those of 10_state.md R14; `params` is the
implementation's constants; `pending`, `results` and `draws` are the model's own (log entries 1, 8, 10). -/
structure State where
  /-- The parameters of 00_scope.md R6; no step writes them (log entry 2). -/
  params : Params
  /-- CTRL.SAT (R23). -/
  sat : Bool
  /-- STATUS.LAST_OK (R24). -/
  lastOk : Bool
  /-- STATUS.ERR (R24). -/
  err : Bool
  /-- STATUS.ECODE (R24). -/
  ecode : BitVec 4
  /-- NOUT (R26). -/
  nout : BitVec 8
  /-- GRIDN_R (R27). -/
  gridR : BitVec 9
  /-- GRIDN_G (R27). -/
  gridG : BitVec 9
  /-- GRIDN_B (R27). -/
  gridB : BitVec 9
  /-- OUT[0 .. MAX_OUT-1], OUT[0] first (R29). -/
  out : List U16
  /-- GS_R, GS_G, GS_B and DENS (R30, R33). -/
  mem : Memory
  /-- The events that wait, the oldest first (20_memory.md R47, R48). -/
  pending : List BusEvent
  /-- What host reads have returned, the newest first (20_memory.md R41). -/
  results : List Word
  /-- How many free values have been drawn (10_state.md R36). -/
  draws : Nat
  deriving DecidableEq, Repr

/-- The state after reset of an implementation with the parameters `p` (10_state.md R35). -/
def State.atReset (p : Params) : State where
  params := p
  sat := false
  lastOk := false
  err := false
  ecode := 0
  nout := 0
  gridR := 0
  gridG := 0
  gridB := 0
  out := List.replicate p.maxOut 0
  mem := []
  pending := []
  results := []
  draws := 0

/-- The state after reset, with the default parameters (10_state.md R35, 00_scope.md R6). -/
def State.reset : State := State.atReset Params.default

end Sys2Proof.Machine
end

