-- ==== Sys2Proof/Machine/Flags.lean ====
section
/-! DEFINITION. STATUS, the block's only flag register (10_state.md R24, 60_exceptions.md R86). -/

namespace Sys2Proof.Machine

/-- The value of an error in STATUS.ECODE (60_exceptions.md R86). -/
def ErrorCode.code : ErrorCode → BitVec 4
  | .gridAccessOutOfRange => 1
  | .illegalCommand => 2
  | .badConfig => 3

/-- STATUS as the host reads it: ECODE [7:4], ERR [1], LAST_OK [0], the other bits 0 (10_state.md R24, 20_memory.md R41). -/
def State.statusWord (s : State) : Word :=
  ((0 : BitVec 24) ++ s.ecode ++ (0 : BitVec 2) ++ BitVec.ofBool s.err ++ BitVec.ofBool s.lastOk :
    BitVec (24 + 4 + 2 + 1 + 1))

/-- CTRL as the host reads it: SAT [0], the other bits 0 (10_state.md R23). -/
def State.ctrlWord (s : State) : Word :=
  (BitVec.ofBool s.sat).setWidth 32

/-- A command that raised nothing ends with STATUS.LAST_OK <- 1; ERR and ECODE stay (40_control.md R62). -/
def complete (s : State) : State := { s with lastOk := true }

end Sys2Proof.Machine
end

