-- ==== Sys2Proof/Machine/Ops.lean ====
section
/-! DEFINITION. The named operations over memory and registers: the RAM bytes and entries (20_memory.md R38, R44), the
output registers (10_state.md R29), raising a hardware error and clearing it (60_exceptions.md R87, R92), and reset
(70_reset_and_hazards.md R100). -/

namespace Sys2Proof.Machine

/-! ## Bytes of memory -/

/-- The byte at an offset, if it has been written. -/
def Memory.byte : Memory → Nat → Option Byte
  | [], _ => Memory.unlisted
  | (k, v) :: rest, a => if k = a then some v else Memory.byte rest a

/-- Writes one byte and keeps the offsets strictly rising. -/
def Memory.setByte : Memory → Nat → Byte → Memory
  | [], a, v => [(a, v)]
  | (k, u) :: rest, a, v =>
    if a < k then (a, v) :: (k, u) :: rest
    else if a = k then (a, v) :: rest
    else (k, u) :: Memory.setByte rest a v

/-- Bits [7:0] of a u16: the byte at the lower offset (20_memory.md R38). -/
def lowByte (v : U16) : Byte := v.extractLsb' 0 8

/-- Bits [15:8] of a u16: the byte at the higher offset (20_memory.md R38). -/
def highByte (v : U16) : Byte := v.extractLsb' 8 8

/-- The u16 at an offset, little-endian (20_memory.md R38); no value unless both bytes are written (log entry 9). -/
def Memory.half (m : Memory) (a : Nat) : Option U16 :=
  match m.byte a, m.byte (a + 1) with
  | some lo, some hi => some (hi ++ lo)
  | _, _ => none

/-- Writes a u16, little-endian (20_memory.md R38). -/
def Memory.setHalf (m : Memory) (a : Nat) (v : U16) : Memory :=
  (m.setByte a (lowByte v)).setByte (a + 1) (highByte v)

/-- Replaces everything written in [lo, hi) by `new`, which lies in it. -/
def Memory.replaceRange (m : Memory) (lo hi : Nat) (new : Memory) : Memory :=
  m.filter (fun c => c.1 < lo) ++ new ++ m.filter (fun c => hi ≤ c.1)

/-! ## Entries of the RAMs -/

/-- R, G, B are numbered 0, 1, 2 (20_memory.md R41). -/
def Axis.index : Axis → Nat
  | .r => 0
  | .g => 1
  | .b => 2

/-- Where the GridSample arrays begin and end in the aperture (10_state.md R18). -/
def gsBegin : Nat := 0x01000
def gsEnd : Nat := 0x01C00

/-- The offset of GS_a[i] (10_state.md R30, 20_memory.md R41). -/
def gsAddr (a : Axis) (i : Byte) : Nat := 0x01000 + 0x400 * a.index + 4 * i.toNat

/-- The offset of DENS[j] (10_state.md R33). -/
def densAddr (j : Nat) : Nat := 0x40000 + 4 * j

/-- GS_a[i], if it has been written: base in bits [15:0], frac in bits [31:16] of its word (10_state.md R30). -/
def State.gs (s : State) (a : Axis) (i : Byte) : Option GridSample :=
  match s.mem.half (gsAddr a i), s.mem.half (gsAddr a i + 2) with
  | some base, some frac => some ⟨base, frac⟩
  | _, _ => none

/-- DENS[j], if it has been written: bits [15:0] of its word (10_state.md R33). -/
def State.dens (s : State) (j : Nat) : Option U16 := s.mem.half (densAddr j)

/-- Writes a GridSample entry (20_memory.md R42). -/
def State.setGs (s : State) (a : Axis) (i : Byte) (e : GridSample) : State :=
  { s with mem := (s.mem.setHalf (gsAddr a i) e.base).setHalf (gsAddr a i + 2) e.frac }

/-- Writes a density (20_memory.md R42). -/
def State.setDens (s : State) (j : Nat) (v : U16) : State :=
  { s with mem := s.mem.setHalf (densAddr j) v }

/-- GSRead, the engine's read of a GridSample entry on behalf of `cmd` (20_memory.md R44). -/
def gsRead (cmd : Instr) (s : State) (a : Axis) (i : Byte) : Except Fault GridSample :=
  match s.gs a i with
  | some e => .ok e
  | none => .error (.uninitRead cmd (.gs a i))

/-- DensRead, the engine's read of a density on behalf of `cmd` (20_memory.md R44). -/
def densRead (cmd : Instr) (s : State) (j : Nat) : Except Fault U16 :=
  match s.dens j with
  | some v => .ok v
  | none => .error (.uninitRead cmd (.dens j))

/-! ## The output registers -/

/-- OUT[k] (10_state.md R29). -/
def State.outReg (s : State) (k : Nat) : U16 := s.out.getD k 0

/-- OUT[k] <- res[k] for k below the length of `res`; the others stay (10_state.md R29, 43_interp.md R82; log entry 12). -/
def State.writeOut (s : State) (res : List U16) : State :=
  { s with out := res ++ s.out.drop res.length }

/-! ## Errors and reset -/

/-- `raise Error(code)` (60_exceptions.md R87): the first code is kept, ERR is set, LAST_OK cleared, nothing else changes.
It is the block's form of taking an exception: there is no vector, no mode and no saved pc (R92). -/
def raiseError (c : ErrorCode) (s : State) : State :=
  { s with
    ecode := if s.err then s.ecode else c.code
    err := true
    lastOk := false }

/-- A STATUS write with bit 1 = 1: ERR and ECODE <- 0, LAST_OK stays (10_state.md R24). It is the only "return" from an
error (60_exceptions.md R92). -/
def clearError (s : State) : State := { s with err := false, ecode := 0 }

/-- Reset of the running block (70_reset_and_hazards.md R100): every register at its reset value, the RAMs unwritten.
The implementation's parameters and what the host holds stay (log entry 11). -/
def resetBlock (s : State) : State :=
  { State.atReset s.params with pending := s.pending, results := s.results, draws := s.draws }

end Sys2Proof.Machine
end

