-- ==== Sys2Proof/Machine/Control.lean ====
section
/-! DEFINITION. NOP (40_control.md R64). -/

namespace Sys2Proof.Machine

/-- NOP reads and writes nothing; it completes, even after reset (R64). -/
def execNop (s : State) : Host.Outcome State Fault Refusal := .next (complete s)

end Sys2Proof.Machine
end

