-- ==== Sys2Proof/Machine/Arith.lean ====
section
/-! DEFINITION. The arithmetic primitives of 00_scope.md R8 and R9, on mathematical integers. -/

namespace Sys2Proof.Machine

/-- The unique s32 congruent to `v` modulo 2^32 (R8). -/
def wrap32 (v : Int) : Int := (v + 2 ^ 31) % 2 ^ 32 - 2 ^ 31

/-- The arithmetic right shift, floor(v / 2^n): it rounds toward minus infinity (R9). -/
def asr (v : Int) (n : Nat) : Int := v / 2 ^ n

/-- `v` modulo 2^16, as a u16 (R8). -/
def trunc16 (v : Int) : U16 := BitVec.ofInt 16 v

/-- `v` held between `lo` and `hi` (R8). -/
def clamp (v lo hi : Int) : Int := if v < lo then lo else if hi < v then hi else v

end Sys2Proof.Machine
end

