-- ==== Sys2Proof/Machine/Operands.lean ====
section
/-! DEFINITION. What the commands read before they compute: the configuration (10_state.md R28), the GridSample operands
and the cube they select (43_interp.md R74, R75), and the loop over the output channels (43_interp.md R82, R83). -/

namespace Sys2Proof.Machine

/-- n_a = reg[GRIDN_a][8:0], the number of grid points on axis a (10_state.md R27). -/
def State.gridN (s : State) : Axis → Nat
  | .r => s.gridR.toNat
  | .g => s.gridG.toNat
  | .b => s.gridB.toNat

/-- reg[NOUT][7:0], the output channel count (10_state.md R26). -/
def State.noutN (s : State) : Nat := s.nout.toNat

/-- 1 <= n_a <= MAX_GRID on one axis (10_state.md R28). -/
def State.axisOK (s : State) (a : Axis) : Bool :=
  1 ≤ s.gridN a && s.gridN a ≤ s.params.maxGrid

/-- GridOK (10_state.md R28). -/
def State.gridOK (s : State) : Bool :=
  s.axisOK .r && s.axisOK .g && s.axisOK .b

/-- CfgOK (10_state.md R28). -/
def State.cfgOK (s : State) : Bool :=
  s.gridOK && 1 ≤ s.noutN && s.noutN ≤ s.params.maxOut &&
    s.noutN * s.gridN .r * s.gridN .g * s.gridN .b ≤ s.params.densDepth

/-- The three GridSample entries of a pixel: step 1 of INTERP (43_interp.md R74). -/
structure Samples where
  r : GridSample
  g : GridSample
  b : GridSample
  deriving DecidableEq, Repr

/-- Step 1: GSRead on axes R, G, B in this order (43_interp.md R74). -/
def fetchSamples (cmd : Instr) (s : State) (r g b : Byte) : Except Fault Samples :=
  match gsRead cmd s .r r with
  | .error f => .error f
  | .ok er =>
    match gsRead cmd s .g g with
    | .error f => .error f
    | .ok eg =>
      match gsRead cmd s .b b with
      | .error f => .error f
      | .ok eb => .ok ⟨er, eg, eb⟩

/-- The lower coordinate on an axis (43_interp.md R74). -/
def GridSample.lower (e : GridSample) : Nat := e.base.toNat

/-- The upper coordinate on an axis: one step up, except where the fraction is 0 (43_interp.md R75). -/
def GridSample.upper (e : GridSample) : Nat := e.base.toNat + (if e.frac = 0 then 0 else 1)

/-- The coordinate a corner's selector picks on an axis: 1 the upper, 0 the lower (43_interp.md, notation). -/
def GridSample.coord (e : GridSample) (upper : Bool) : Nat := if upper then e.upper else e.lower

/-- Both coordinates of an axis are below its grid count (43_interp.md R76). -/
def GridSample.inGrid (e : GridSample) (n : Nat) : Bool := e.lower < n && e.upper < n

/-- The range check of all six coordinates (43_interp.md R76). -/
def Samples.inGrid (p : Samples) (s : State) : Bool :=
  p.r.inGrid (s.gridN .r) && p.g.inGrid (s.gridN .g) && p.b.inGrid (s.gridN .b)

/-- The loop `for k in 0 .. n-1`: the channels' values in order, or the first fault. -/
def forChannels (f : Nat → Except Fault U16) : Nat → Except Fault (List U16)
  | 0 => .ok []
  | n + 1 =>
    match forChannels f n with
    | .error e => .error e
    | .ok vs =>
      match f n with
      | .error e => .error e
      | .ok v => .ok (vs ++ [v])

/-- Computes every channel k < NOUT, then writes OUT and completes (43_interp.md R82, 42_lut_access.md R73). -/
def outputChannels (f : Nat → Except Fault U16) (s : State) : Host.Outcome State Fault Refusal :=
  match forChannels f s.noutN with
  | .error e => .fault e
  | .ok res => .next (complete (s.writeOut res))

end Sys2Proof.Machine
end

