-- ==== Sys2Proof/Machine/Lut.lean ====
section
/-! DEFINITION. The color_lut_engine: the index function, the accessor and LOOKUP (42_lut_access.md R71, R72, R73). -/

namespace Sys2Proof.Machine

/-- DensIndex(x, y, z, k): axis R slowest, axis B faster, the output channel fastest (R71). -/
def State.densIndex (s : State) (x y z k : Nat) : Nat :=
  ((x * s.gridN .g + y) * s.gridN .b + z) * s.noutN + k

/-- The accessor density(x, y, z, k) (R72). -/
def density (cmd : Instr) (s : State) (x y z k : Nat) : Except Fault U16 :=
  densRead cmd s (s.densIndex x y z k)

/-- The coordinates lie in the grid (10_state.md R34). -/
def State.vertexInGrid (s : State) (x y z : Nat) : Bool :=
  x < s.gridN .r && y < s.gridN .g && z < s.gridN .b

/-- LOOKUP x, y, z: BAD_CONFIG unless CfgOK, then GRID_ACCESS_OUT_OF_RANGE unless the vertex exists, else its NOUT
densities into OUT (R73). -/
def execLookup (x y z : Byte) (s : State) : Host.Outcome State Fault Refusal :=
  if s.cfgOK then
    if s.vertexInGrid x.toNat y.toNat z.toNat then
      outputChannels (density (.lookup x y z) s x.toNat y.toNat z.toNat) s
    else .next (raiseError .gridAccessOutOfRange s)
  else .next (raiseError .badConfig s)

end Sys2Proof.Machine
end

