-- ==== Sys2Proof/Machine/Interp.lean ====
section
/-! DEFINITION. The tetrahedral datapath: INTERP (43_interp.md R74 to R83). -/

namespace Sys2Proof.Machine

/-- The six tetrahedra, named by the axes from largest fraction to smallest, and the case where no condition holds
(R77, R78). -/
inductive Tetra where
  | rgb
  | rbg
  | brg
  | grb
  | gbr
  | bgr
  | noCase
  deriving DecidableEq, Repr

/-- Step 3b: the six conditions in the document's order, the first that holds winning (R77). The fractions are unsigned. -/
def classify (fr fg fb : Nat) : Tetra :=
  if fg ≤ fr ∧ fb ≤ fg then .rgb
  else if fb ≤ fr ∧ fg ≤ fb then .rbg
  else if fr ≤ fb ∧ fg ≤ fr then .brg
  else if fr ≤ fg ∧ fb ≤ fr then .grb
  else if fb ≤ fg ∧ fr ≤ fb then .gbr
  else if fg ≤ fb ∧ fr ≤ fg then .bgr
  else .noCase

/-- A corner of the cube, written sx sy sz: true picks the upper coordinate of the axis (R75, R79). -/
structure Corner where
  sx : Bool
  sy : Bool
  sz : Bool
  deriving DecidableEq, Repr

/-- c0 and the edge deltas c1, c2, c3, which multiply fr, fg, fb (R79). -/
structure Coeffs where
  c0 : Int
  c1 : Int
  c2 : Int
  c3 : Int
  deriving DecidableEq, Repr

/-- Reads the four corners of a tetrahedron in this order and makes the coefficients from their densities. -/
def readCorners (d : Corner → Except Fault U16) (p q t u : Corner) (f : Int → Int → Int → Int → Coeffs) :
    Except Fault Coeffs :=
  match d p with
  | .error e => .error e
  | .ok dp =>
    match d q with
    | .error e => .error e
    | .ok dq =>
      match d t with
      | .error e => .error e
      | .ok dt =>
        match d u with
        | .error e => .error e
        | .ok du => .ok (f dp.toNat dq.toNat dt.toNat du.toNat)

/-- Steps 3a, 3c and 3d: the table of R79, `d` reading the density of a corner. In a row `d100` is D(1,0,0), the density
of the corner with sx = 1, sy = 0, sz = 0, and so on. -/
def coeffs (d : Corner → Except Fault U16) : Tetra → Except Fault Coeffs
  | .rgb => readCorners d ⟨false, false, false⟩ ⟨true, false, false⟩ ⟨true, true, false⟩ ⟨true, true, true⟩
      (fun d000 d100 d110 d111 => ⟨d000, d100 - d000, d110 - d100, d111 - d110⟩)
  | .rbg => readCorners d ⟨false, false, false⟩ ⟨true, false, false⟩ ⟨true, false, true⟩ ⟨true, true, true⟩
      (fun d000 d100 d101 d111 => ⟨d000, d100 - d000, d111 - d101, d101 - d100⟩)
  | .brg => readCorners d ⟨false, false, false⟩ ⟨false, false, true⟩ ⟨true, false, true⟩ ⟨true, true, true⟩
      (fun d000 d001 d101 d111 => ⟨d000, d101 - d001, d111 - d101, d001 - d000⟩)
  | .grb => readCorners d ⟨false, false, false⟩ ⟨false, true, false⟩ ⟨true, true, false⟩ ⟨true, true, true⟩
      (fun d000 d010 d110 d111 => ⟨d000, d110 - d010, d010 - d000, d111 - d110⟩)
  | .gbr => readCorners d ⟨false, false, false⟩ ⟨false, true, false⟩ ⟨false, true, true⟩ ⟨true, true, true⟩
      (fun d000 d010 d011 d111 => ⟨d000, d111 - d011, d010 - d000, d011 - d010⟩)
  | .bgr => readCorners d ⟨false, false, false⟩ ⟨false, false, true⟩ ⟨false, true, true⟩ ⟨true, true, true⟩
      (fun d000 d001 d011 d111 => ⟨d000, d111 - d011, d011 - d001, d001 - d000⟩)
  | .noCase =>
    match d ⟨false, false, false⟩ with
    | .error e => .error e
    | .ok d000 => .ok ⟨d000.toNat, 0, 0, 0⟩

/-- The rounding bias (R80, C1). -/
def roundBias : Int := 0x8001

/-- The weighted sum c1*fr + c2*fg + c3*fb (R80). -/
def weightedSum (c : Coeffs) (fr fg fb : Nat) : Int := c.c1 * fr + c.c2 * fg + c.c3 * fb

/-- Step 3e: the bias, the fold from 16 fractional bits and the low corner, in the datapath's ARITH_MODE (R80). -/
def combine (mode : ArithMode) (c : Coeffs) (fr fg fb : Nat) : Int :=
  match mode with
  | .wrap32 =>
    let rest := wrap32 (weightedSum c fr fg fb + roundBias)
    let t := wrap32 (rest + asr rest 16)
    wrap32 (c.c0 + asr t 16)
  | .wide =>
    let rest := weightedSum c fr fg fb + roundBias
    c.c0 + asr (rest + asr rest 16) 16

/-- Step 3f: truncation, or saturation where CTRL.SAT = 1 (R81). -/
def convert (sat : Bool) (v : Int) : U16 :=
  if sat then BitVec.ofInt 16 (clamp v 0 65535) else trunc16 v

/-- D(sx, sy, sz): the density of a cube corner on channel k (43_interp.md, notation). -/
def cornerDensity (cmd : Instr) (s : State) (p : Samples) (k : Nat) (c : Corner) : Except Fault U16 :=
  density cmd s (p.r.coord c.sx) (p.g.coord c.sy) (p.b.coord c.sz) k

/-- The result of one output channel (R79, R80, R81). -/
def interpChannel (cmd : Instr) (s : State) (p : Samples) (k : Nat) : Except Fault U16 :=
  match coeffs (cornerDensity cmd s p k) (classify p.r.frac.toNat p.g.frac.toNat p.b.frac.toNat) with
  | .error e => .error e
  | .ok c => .ok (convert s.sat (combine s.params.arith c p.r.frac.toNat p.g.frac.toNat p.b.frac.toNat))

/-- INTERP r, g, b: BAD_CONFIG unless CfgOK; the GridSample reads; GRID_ACCESS_OUT_OF_RANGE unless all six coordinates
are in the grid; then every channel, then OUT (R83). -/
def execInterp (r g b : Byte) (s : State) : Host.Outcome State Fault Refusal :=
  if s.cfgOK then
    match fetchSamples (.interp r g b) s r g b with
    | .error f => .fault f
    | .ok p =>
      if p.inGrid s then outputChannels (interpChannel (.interp r g b) s p) s
      else .next (raiseError .gridAccessOutOfRange s)
  else .next (raiseError .badConfig s)

end Sys2Proof.Machine
end

