-- ==== Sys2Proof/Machine/Sampler.lean ====
section
/-! DEFINITION. The fixed_point_lattice_sampler: the sample function and BUILD (41_sampler.md R67, R68). -/

namespace Sys2Proof.Machine

/-- The position of input byte `i` on an axis of `n` grid points, in 16.16 fixed point: the value v of Sample (R67). -/
def samplePos (n i : Nat) : Nat :=
  let d := n - 1
  let in16 := i * 257
  let p := in16 * d
  p + (p + 0x7FFF) / 0xFFFF

/-- Sample(n, i) = (base = v[31:16], frac = v[15:0]) (R67). -/
def sample (n : Nat) (i : Byte) : GridSample :=
  ⟨BitVec.ofNat 16 (samplePos n i.toNat / 2 ^ 16), BitVec.ofNat 16 (samplePos n i.toNat)⟩

/-- The four bytes of a GridSample entry at its offset (10_state.md R30, 20_memory.md R38). -/
def gsCells (addr : Nat) (e : GridSample) : List Host.Cell :=
  [(addr, lowByte e.base), (addr + 1, highByte e.base), (addr + 2, lowByte e.frac), (addr + 3, highByte e.frac)]

/-- The bytes of the entries i, i + 1, … (`count` of them) of the array GS_a that BUILD writes for `n` grid points: each
is Sample(n, i) (R68). -/
def builtCells (a : Axis) (n : Nat) : Nat → Nat → List Host.Cell
  | _, 0 => []
  | i, count + 1 =>
    gsCells (0x01000 + 0x400 * a.index + 4 * i) (sample n (BitVec.ofNat 8 i)) ++ builtCells a n (i + 1) count

/-- The bytes of all three built arrays, 256 entries each, in rising order of offset (R68). -/
def builtArrays (nR nG nB : Nat) : List Host.Cell :=
  builtCells .r nR 0 256 ++ builtCells .g nG 0 256 ++ builtCells .b nB 0 256

/-- The state with every entry of GS_R, GS_G and GS_B written from the grid counts (R68). -/
def buildSamples (s : State) : State :=
  { s with
    mem := s.mem.replaceRange gsBegin gsEnd (builtArrays (s.gridN .r) (s.gridN .g) (s.gridN .b)) }

/-- BUILD: BAD_CONFIG unless GridOK; else all 768 entries, and it completes (R68). -/
def execBuild (s : State) : Host.Outcome State Fault Refusal :=
  if s.gridOK then .next (complete (buildSamples s))
  else .next (raiseError .badConfig s)

end Sys2Proof.Machine
end

