-- ==== Sys2Proof/Machine/Dispatch.lean ====
section
/-! DEFINITION. One arm per command (40_control.md R62). -/

namespace Sys2Proof.Machine

def exec (i : Instr) (s : State) : Host.Outcome State Fault Refusal :=
  match i with
  | .nop => Sys2Proof.Machine.execNop s
  | .interp r g b => Sys2Proof.Machine.execInterp r g b s
  | .lookup x y z => Sys2Proof.Machine.execLookup x y z s
  | .build => Sys2Proof.Machine.execBuild s

end Sys2Proof.Machine
end

