-- ==== Sys2Proof/Machine/Bus.lean ====
section
/-! DEFINITION. The host's register accesses: the register map (10_state.md R18 to R33), MemRead and MemWrite
(20_memory.md R39 to R43), and Execute, which a write to CMD performs (40_control.md R62). -/

namespace Sys2Proof.Machine

/-- What stands at an offset of the aperture (10_state.md R18). -/
inductive Slot where
  | id
  | caps
  | ctrl
  | status
  | cmd
  | nout
  | gridn (a : Axis)
  | depth
  | out (k : Nat)
  | gs (a : Axis) (i : Byte)
  | dens (j : Nat)
  | reserved
  deriving DecidableEq, Repr

/-- The registers below offset 0x00100 (10_state.md R18); the gap 0x00028 to 0x000FF is reserved (20_memory.md R43). -/
def registerAt : Nat → Slot
  | 0x00000 => .id
  | 0x00004 => .caps
  | 0x00008 => .ctrl
  | 0x0000C => .status
  | 0x00010 => .cmd
  | 0x00014 => .nout
  | 0x00018 => .gridn .r
  | 0x0001C => .gridn .g
  | 0x00020 => .gridn .b
  | 0x00024 => .depth
  | _ => .reserved

/-- The axis numbered 0, 1, 2 (20_memory.md R41). -/
def Axis.ofIndex : Nat → Axis
  | 0 => .r
  | 1 => .g
  | _ => .b

/-- The slot at a byte offset that is a multiple of 4: the registers, OUT from 0x00100, the three GridSample arrays of 256
words each from 0x01000, DENS from 0x40000; what is between and behind them is reserved (10_state.md R18, 20_memory.md R41,
R43). -/
def slotAt (p : Params) (off : Nat) : Slot :=
  if off < 0x00100 then registerAt off
  else if off < 0x01000 then
    if (off - 0x00100) / 4 < p.maxOut then .out ((off - 0x00100) / 4) else .reserved
  else if off < 0x01C00 then
    .gs (Axis.ofIndex ((off - 0x01000) / 0x400)) (BitVec.ofNat 8 ((off - 0x01000) / 4))
  else if off < 0x40000 then .reserved
  else if (off - 0x40000) / 4 < p.densDepth then .dens ((off - 0x40000) / 4)
  else .reserved

/-- ID (10_state.md R20). -/
def idWord : Word := 0x54490001

/-- CAPS: MAX_OUT [7:0], ARITH_WIDE [8], MAX_GRID [24:16], the other bits 0 (10_state.md R21). -/
def capsWord (p : Params) : Word :=
  ((0 : BitVec 7) ++ BitVec.ofNat 9 p.maxGrid ++ (0 : BitVec 7) ++ BitVec.ofBool (decide (p.arith = .wide)) ++
    BitVec.ofNat 8 p.maxOut : BitVec (7 + 9 + 7 + 1 + 8))

/-- DEPTH: DENS_DEPTH in [16:0], the other bits 0 (10_state.md R22). -/
def depthWord (p : Params) : Word := (BitVec.ofNat 17 p.densDepth).setWidth 32

/-- The value of a slot; none where it is a RAM entry that nothing has written (20_memory.md R41). -/
def State.slotValue (s : State) : Slot → Option Word
  | .id => some idWord
  | .caps => some (capsWord s.params)
  | .ctrl => some s.ctrlWord
  | .status => some s.statusWord
  | .cmd => some 0
  | .nout => some (s.nout.setWidth 32)
  | .gridn .r => some (s.gridR.setWidth 32)
  | .gridn .g => some (s.gridG.setWidth 32)
  | .gridn .b => some (s.gridB.setWidth 32)
  | .depth => some (depthWord s.params)
  | .out k => some ((s.outReg k).setWidth 32)
  | .gs a i => (s.gs a i).map (fun e => (e.frac ++ e.base : BitVec (16 + 16)))
  | .dens j => (s.dens j).map (fun v => v.setWidth 32)
  | .reserved => some 0

/-- The unconstrained value of an unwritten entry (10_state.md R36): any word of GS_a, any u16 of DENS, whose bits
[31:16] read as 0 (R33; log entry 8). -/
def drawFor (draw : Word) : Slot → Word
  | .dens _ => (draw.setWidth 16).setWidth 32
  | _ => draw

/-- MemRead of a slot: the value goes back to the host, and the block is unchanged (20_memory.md R40, R41). A read of an
unwritten entry takes a fresh free value (10_state.md R36). -/
def hostRead (s : State) (sl : Slot) : State :=
  match s.slotValue sl with
  | some v => { s with results := v :: s.results }
  | none => { s with results := drawFor (Config.freeHostRead s.draws) sl :: s.results, draws := s.draws + 1 }

/-- Execute(w): decode, then the command, or ILLEGAL_COMMAND (40_control.md R62). -/
def execute (w : Word) (s : State) : Host.Outcome State Fault Refusal :=
  match decode w with
  | .error _ => .next (raiseError .illegalCommand s)
  | .ok i => exec i s

/-- MemWrite of a slot other than CMD (20_memory.md R42): a write to a read-only or reserved slot is ignored (R43), and so
are the bits of a register that no field has (10_state.md R19). -/
def registerWrite (s : State) (v : Word) : Slot → State
  | .id => s
  | .caps => s
  | .ctrl => { s with sat := v.getLsbD 0 }
  | .status => if v.getLsbD 1 then clearError s else s
  | .cmd => s
  | .nout => { s with nout := v.setWidth 8 }
  | .gridn .r => { s with gridR := v.setWidth 9 }
  | .gridn .g => { s with gridG := v.setWidth 9 }
  | .gridn .b => { s with gridB := v.setWidth 9 }
  | .depth => s
  | .out _ => s
  | .gs a i => s.setGs a i ⟨v.extractLsb' 0 16, v.extractLsb' 16 16⟩
  | .dens j => s.setDens j (v.extractLsb' 0 16)
  | .reserved => s

/-- MemWrite (20_memory.md R42): a write to CMD performs Execute, any other a register write. -/
def hostWrite (s : State) (v : Word) (sl : Slot) : Host.Outcome State Fault Refusal :=
  if sl = .cmd then execute v s else .next (registerWrite s v sl)

/-- The size of the aperture in bytes (10_state.md R18). -/
def apertureSize : Nat := 0x80000

/-- The byte offset of an admitted access: 32 bits wide, at a multiple of 4, inside the aperture (20_memory.md R37, R39,
R41); else the refusal. -/
def accessOffset (p : Params) (addr width : Nat) : Except Refusal Nat :=
  if addr < p.baseAddr ∨ p.baseAddr + apertureSize ≤ addr then .error (.outsideAperture addr)
  else if width = 4 ∧ (addr - p.baseAddr) % 4 = 0 then .ok (addr - p.baseAddr)
  else .error (.busSubword addr width)

/-- The block performs one event (20_memory.md R47, 70_reset_and_hazards.md R100). -/
def perform (e : BusEvent) (s : State) : Host.Outcome State Fault Refusal :=
  match e with
  | .reset => .next (resetBlock s)
  | .read addr width =>
    match accessOffset s.params addr width with
    | .error r => .refused r
    | .ok off => .next (hostRead s (slotAt s.params off))
  | .write addr width v =>
    match accessOffset s.params addr width with
    | .error r => .refused r
    | .ok off => hostWrite s v (slotAt s.params off)

/-- The host write that carries a command word: 32 bits to CMD, at offset 0x00010 (10_state.md R25). -/
def commandWrite (p : Params) (w : Word) : BusEvent := .write (p.baseAddr + 0x00010) 4 w

end Sys2Proof.Machine
end

