-- ==== Sys2Proof/Machine/Step.lean ====
section
/-! DEFINITION. One step: the block performs the oldest event that waits (20_memory.md R47). -/

namespace Sys2Proof.Machine

/-- The oldest waiting event is taken from the queue and performed, whole (R47). With none waiting the block performs
nothing and stays as it is (00_scope.md R5, 70_reset_and_hazards.md R101; log entry 3). -/
def step (s : State) : Host.Outcome State Fault Refusal :=
  match s.pending with
  | [] => .next s
  | e :: rest => perform e { s with pending := rest }

/-- `s` with a command word as the next thing the host writes to CMD: the block has no program counter, so this is where
its next command comes from (10_state.md R16, R25; log entries 1, 14). -/
def State.withFetchWord (s : State) (nbits w : Nat) : State :=
  { s with pending := commandWrite s.params (tableWord nbits w) :: s.pending }

end Sys2Proof.Machine
end

