-- ==== Sys2Proof/Machine/HostProgram.lean ====
section
/-! DEFINITION. Host programs: the lines of the assembly syntax and the pseudo-operations, with the register accesses each
stands for (30_encoding.md R60, R61). -/

namespace Sys2Proof.Machine

/-- A line of a host program (30_encoding.md R60, R61). Offsets are the aperture's. -/
inductive HostLine where
  /-- `wr OFF, V`. -/
  | wr (off v : Nat)
  /-- `rd OFF`. -/
  | rd (off : Nat)
  /-- A command: `nop`, `interp r, g, b`, `lookup x, y, z`, `build`. -/
  | command (i : Instr)
  /-- `cfg nout, nr, ng, nb`. -/
  | cfg (nout nr ng nb : Nat)
  /-- `sat on` and `sat off`. -/
  | sat (on : Bool)
  /-- `clrerr`. -/
  | clrerr
  /-- `ld.dens j, v`. -/
  | ldDens (j v : Nat)
  /-- `ld.gs a, i, base, frac`, with a = 0 for R, 1 for G, 2 for B. -/
  | ldGs (a i base frac : Nat)
  /-- `rd.out k`. -/
  | rdOut (k : Nat)
  /-- `rd.status`. -/
  | rdStatus
  deriving DecidableEq, Repr

/-- MemWrite(OFF, 4, V) as an event of the bus (30_encoding.md R60). -/
def wrEvent (p : Params) (off v : Nat) : BusEvent := .write (p.baseAddr + off) 4 (BitVec.ofNat 32 v)

/-- MemRead(OFF, 4) as an event of the bus (30_encoding.md R60). -/
def rdEvent (p : Params) (off : Nat) : BusEvent := .read (p.baseAddr + off) 4

/-- The accesses of a line (30_encoding.md R60, R61). -/
def HostLine.expand (p : Params) : HostLine → List BusEvent
  | .wr off v => [wrEvent p off v]
  | .rd off => [rdEvent p off]
  | .command i => [commandWrite p (encode i)]
  | .cfg nout nr ng nb =>
    [wrEvent p 0x00014 nout, wrEvent p 0x00018 nr, wrEvent p 0x0001C ng, wrEvent p 0x00020 nb]
  | .sat on => [wrEvent p 0x00008 (if on then 1 else 0)]
  | .clrerr => [wrEvent p 0x0000C 0x2]
  | .ldDens j v => [wrEvent p (0x40000 + 4 * j) v]
  | .ldGs a i base frac => [wrEvent p (0x01000 + 0x400 * a + 4 * i) (frac * 2 ^ 16 + base)]
  | .rdOut k => [rdEvent p (0x00100 + 4 * k)]
  | .rdStatus => [rdEvent p 0x0000C]

/-- A program in the host's hands: its accesses wait behind those already waiting (20_memory.md R48; log entry 1). -/
def State.withProgram (s : State) (lines : List HostLine) : State :=
  { s with pending := s.pending ++ lines.flatMap (HostLine.expand s.params) }

end Sys2Proof.Machine
end

