-- ==== Sys2Proof/Safety.lean ====
section
/-! DEFINITION. What the states of a run have in common, and what a run that errs or stops is. -/

namespace Sys2Proof.Machine

/-- The entry lies in the block's RAMs (10_state.md R14). -/
def RamEntry.Exists (p : Params) : RamEntry → Prop
  | .gs _ _ => True
  | .dens j => j < p.densDepth

/-- The bytes of an entry (10_state.md R30, R33). -/
def RamEntry.bytes : RamEntry → List Nat
  | .gs a i => [gsAddr a i, gsAddr a i + 1, gsAddr a i + 2, gsAddr a i + 3]
  | .dens j => [densAddr j, densAddr j + 1]

/-- Every written byte belongs to an entry of the RAMs all of whose bytes are written: an access is single-copy atomic
(20_memory.md R40), so no entry is half written. -/
def State.EntriesWhole (s : State) : Prop :=
  ∀ a, (s.mem.byte a).isSome → ∃ e : RamEntry, e.Exists s.params ∧ a ∈ e.bytes ∧ ∀ x ∈ e.bytes, (s.mem.byte x).isSome

/-- ECODE is 0 while ERR = 0, and else one of the codes that are raised (10_state.md R24, 60_exceptions.md R86). -/
def State.StatusOK (s : State) : Prop :=
  if s.err then s.ecode = 1 ∨ s.ecode = 2 ∨ s.ecode = 3 else s.ecode = 0

/-- What holds in every state a run from reset reaches. -/
structure State.Inv (s : State) : Prop where
  /-- The parameters lie in their ranges (00_scope.md R6). -/
  paramsLegal : s.params.Legal
  /-- There are MAX_OUT output registers (10_state.md R14). -/
  outLength : s.out.length = s.params.maxOut
  /-- The memory has its canonical form. -/
  memWf : s.mem.wf
  /-- The memory lists whole entries of the RAMs and nothing else. -/
  entriesWhole : s.EntriesWhole
  /-- STATUS is one the errors can make. -/
  statusOK : s.StatusOK

/-- Every entry a command can read under the state's configuration is written: the host has done steps 2 and 3 of the boot
sequence (70_reset_and_hazards.md R102). -/
structure State.TablesFull (s : State) : Prop where
  samples : ∀ a i, (s.gs a i).isSome
  densities : ∀ j, j < s.noutN * s.gridN .r * s.gridN .g * s.gridN .b → (s.dens j).isSome

/-- The state with nothing of STATUS: what a command's effect may depend on (10_state.md R24: no command reads STATUS). -/
def State.withoutStatus (s : State) : State := { s with lastOk := false, err := false, ecode := 0 }

/-- An outcome is safe if it is a next state whose STATUS.ERR is clear (60_exceptions.md R90). -/
def SafeOutcome : Host.Outcome State Fault Refusal → Prop
  | .next t => t.err = false
  | .fault _ => False
  | .refused _ => False

end Sys2Proof.Machine
end

