-- ==== Sys2Proof/Certificates/Slice0/Obligations.lean ====
section
/-! DEFINITION. The statements for the provers. A hypothesis is written in the spec's own terms (Spec.…), not with the
model's check of the same thing. -/

namespace Sys2Proof.Spec

open Sys2Proof.Machine

/-- GridOK, as 10_state.md R28 writes it. -/
def GridOK (s : State) : Prop := ∀ a, 1 ≤ s.gridN a ∧ s.gridN a ≤ s.params.maxGrid

/-- CfgOK, as 10_state.md R28 writes it. -/
def CfgOK (s : State) : Prop :=
  GridOK s ∧ (1 ≤ s.noutN ∧ s.noutN ≤ s.params.maxOut) ∧
    s.noutN * s.gridN .r * s.gridN .g * s.gridN .b ≤ s.params.densDepth

/-- The state 60_exceptions.md R87 leaves after `raise Error(code)`. -/
def raised (code : BitVec 4) (s : State) : State :=
  { s with ecode := if s.err then s.ecode else code, err := true, lastOk := false }

/-- An entry of the RAMs that nothing has written since reset (10_state.md R36). -/
def Unwritten (s : State) : RamEntry → Prop
  | .gs a i => s.gs a i = none
  | .dens j => s.dens j = none

/-- The order of the axes that names a case, largest fraction first (43_interp.md R77). -/
def caseOrder : Tetra → Option (Axis × Axis × Axis)
  | .rgb => some (.r, .g, .b)
  | .rbg => some (.r, .b, .g)
  | .brg => some (.b, .r, .g)
  | .grb => some (.g, .r, .b)
  | .gbr => some (.g, .b, .r)
  | .bgr => some (.b, .g, .r)
  | .noCase => none

/-- The low corner of the cube. -/
def lowCorner : Corner := ⟨false, false, false⟩

/-- The corner one step up along an axis. -/
def stepUp (c : Corner) : Axis → Corner
  | .r => { c with sx := true }
  | .g => { c with sy := true }
  | .b => { c with sz := true }

/-- The path of a case: from the low corner, one step along each axis in the case's order (43_interp.md R79). -/
def path (o : Axis × Axis × Axis) : List Corner :=
  [lowCorner, stepUp lowCorner o.1, stepUp (stepUp lowCorner o.1) o.2.1,
   stepUp (stepUp (stepUp lowCorner o.1) o.2.1) o.2.2]

/-- The coefficient of an axis: the density after the step along it minus the density before (43_interp.md R79). -/
def delta (D : Corner → U16) (o : Axis × Axis × Axis) (a : Axis) : Int :=
  let q1 := stepUp lowCorner o.1
  let q2 := stepUp q1 o.2.1
  let q3 := stepUp q2 o.2.2
  if a = o.1 then ((D q1).toNat : Int) - (D lowCorner).toNat
  else if a = o.2.1 then ((D q2).toNat : Int) - (D q1).toNat
  else ((D q3).toNat : Int) - (D q2).toNat

/-- c0, c1, c2, c3 of a case, from its path. -/
def pathCoeffs (D : Corner → U16) (o : Axis × Axis × Axis) : Coeffs :=
  ⟨(D lowCorner).toNat, delta D o .r, delta D o .g, delta D o .b⟩

/-- The fraction of an axis. -/
def fracOf (fr fg fb : Nat) : Axis → Nat
  | .r => fr
  | .g => fg
  | .b => fb

/-- The condition that names a case (43_interp.md R77). -/
abbrev Holds (o : Axis × Axis × Axis) (fr fg fb : Nat) : Prop :=
  fracOf fr fg fb o.2.1 ≤ fracOf fr fg fb o.1 ∧ fracOf fr fg fb o.2.2 ≤ fracOf fr fg fb o.2.1

/-- The document's list of conditions, in its order (43_interp.md R77). -/
def caseList : List (Tetra × (Axis × Axis × Axis)) :=
  [(.rgb, .r, .g, .b), (.rbg, .r, .b, .g), (.brg, .b, .r, .g), (.grb, .g, .r, .b), (.gbr, .g, .b, .r), (.bgr, .b, .g, .r)]

/-- The upper coordinate on an axis (43_interp.md R75). -/
def upperOf (e : GridSample) : Nat := e.base.toNat + (if e.frac ≠ 0 then 1 else 0)

/-- The coordinate of a corner on an axis: x_0 the base, x_1 the upper coordinate (43_interp.md, notation, and R75). -/
def coordOf (e : GridSample) (sel : Bool) : Nat := if sel then upperOf e else e.base.toNat

/-- The density index of a cube corner on channel k (42_lut_access.md R71, 43_interp.md R75). -/
def cornerIndex (s : State) (p : Samples) (k : Nat) (c : Corner) : Nat :=
  s.densIndex (coordOf p.r c.sx) (coordOf p.g c.sy) (coordOf p.b c.sz) k

/-- All six coordinates of the cube are in the grid (43_interp.md R76). -/
def CubeInGrid (s : State) (p : Samples) : Prop :=
  (p.r.base.toNat < s.gridN .r ∧ upperOf p.r < s.gridN .r) ∧
  (p.g.base.toNat < s.gridN .g ∧ upperOf p.g < s.gridN .g) ∧
  (p.b.base.toNat < s.gridN .b ∧ upperOf p.b < s.gridN .b)

/-- The offsets of the aperture that 20_memory.md R41 names, for the parameters `p`. -/
def Named (p : Params) (off : Nat) : Prop :=
  (off ≤ 0x24) ∨ (∃ k, k < p.maxOut ∧ off = 0x00100 + 4 * k) ∨
  (∃ (a : Axis) (i : Byte), off = 0x01000 + 0x400 * a.index + 4 * i.toNat) ∨
  (∃ j, j < p.densDepth ∧ off = 0x40000 + 4 * j)

/-- A u32 s32: an integer in the range of s32 (00_scope.md R8). -/
def IsS32 (v : Int) : Prop := -2 ^ 31 ≤ v ∧ v < 2 ^ 31

end Sys2Proof.Spec

open Sys2Proof Sys2Proof.Machine Sys2Proof.Spec

/-! ## Encoding -/

/-- 30_encoding.md R57, R58, R60: no bit of a command is dropped on the way through its word. -/
def Obligations.DecodeUndoesEncode : Prop :=
  ∀ i : Instr, i.wellFormed = true → decode (encode i) = .ok i

/-- 30_encoding.md R54, R58: each command has exactly one word. -/
def Obligations.EncodeUndoesDecode : Prop :=
  ∀ (w : Word) (i : Instr), decode w = .ok i → encode i = w

/-- 30_encoding.md R57: the opcode map, row by row, and no other word is a command. -/
def Obligations.DecodeFollowsTheOpcodeMap : Prop :=
  ∀ w : Word,
    (w &&& 0xFFFFFFFF = 0x00000000 → decode w = .ok .nop) ∧
    (w &&& 0xFF000000 = 0x10000000 →
      decode w = .ok (.interp ((w >>> 16).setWidth 8) ((w >>> 8).setWidth 8) (w.setWidth 8))) ∧
    (w &&& 0xFF000000 = 0x20000000 →
      decode w = .ok (.lookup ((w >>> 16).setWidth 8) ((w >>> 8).setWidth 8) (w.setWidth 8))) ∧
    (w &&& 0xFFFFFFFF = 0x30000000 → decode w = .ok .build) ∧
    ((∃ i, decode w = .ok i) → ∃ row ∈ opcodeMap, w &&& row.mask = row.pattern)

/-- 30_encoding.md R59: which words are illegal; that executing one raises ILLEGAL_COMMAND (code 2) and changes no state but
STATUS; and that a LOOKUP coordinate outside the grid is an execution error of a legal word. -/
def Obligations.IllegalWordsRaiseIllegalCommand : Prop :=
  ∀ (w : Word) (s : State),
    ((∀ i, decode w ≠ .ok i) ↔
      (w.toNat / 2 ^ 24 % 16 ≠ 0 ∨ 4 ≤ w.toNat / 2 ^ 28 ∨
        ((w.toNat / 2 ^ 28 = 0 ∨ w.toNat / 2 ^ 28 = 3) ∧ w.toNat % 2 ^ 24 ≠ 0))) ∧
    ((∀ i, decode w ≠ .ok i) → execute w s = .next (raised 2 s)) ∧
    (∀ x y z, decode w = .ok (.lookup x y z) → CfgOK s →
      s.gridN .r ≤ x.toNat ∨ s.gridN .g ≤ y.toNat ∨ s.gridN .b ≤ z.toNat → execute w s = .next (raised 1 s))

/-- Words written out from 30_encoding.md R57, R60 and 95_test_vectors.md V1. That the last three are illegal is the spec's;
the three names of the reason are the model's choice (log entry 13). -/
def Obligations.WordsOfTheSpecDecode : Prop :=
  decode 0x00000000 = .ok .nop ∧ decode 0x108040C8 = .ok (.interp 128 64 200) ∧
  decode 0x2001FF02 = .ok (.lookup 1 255 2) ∧ decode 0x30000000 = .ok .build ∧
  decode 0x01000000 = .error .reservedField ∧ decode 0x30000001 = .error .operandsNotZero ∧
  decode 0x40000000 = .error .noSuchOpcode

/-! ## The step -/

/-- 40_control.md R62, 10_state.md R25: a host write of a command's word to CMD runs that command, in a step that takes the
write from the queue and does nothing else around it. -/
def Obligations.StepRunsTheDecodedCommand : Prop :=
  ∀ (s : State) (rest : List BusEvent) (w : Word) (i : Instr), decode w = .ok i →
    (s.pending = .write (s.params.baseAddr + 0x10) 4 w :: rest → step s = exec i { s with pending := rest }) ∧
    step (s.withFetchWord 32 w.toNat) = exec i s

/-- 00_scope.md R5, 70_reset_and_hazards.md R101: with no event waiting the block does nothing. That the step answers the
same state, rather than none, is the model's choice (log entry 3). -/
def Obligations.IdleBlockStaysAsItIs : Prop :=
  ∀ s : State, s.pending = [] → step s = .next s

/-- 20_memory.md R47: one event is performed at a time, in the order they wait, and a command never issues one. That the
events behind a reset survive it is the model's choice (log entry 11). -/
def Obligations.EachStepConsumesTheOldestEvent : Prop :=
  ∀ (s t : State) (e : BusEvent) (rest : List BusEvent), s.pending = e :: rest → step s = .next t → t.pending = rest

/-- 30_encoding.md R60, R61: what each line of a host program does when its accesses are the next to be performed: `wr` and
`rd` make one access, the line of a command runs the command, and the pseudo-operations set or read what they name. A value
of 2^32 or more is taken modulo 2^32: the model's choice (log entry 19). -/
def Obligations.HostLinesDoWhatTheySay : Prop :=
  ∀ (s : State) (rest : List BusEvent),
    (∀ off v, s.pending = (HostLine.wr off v).expand s.params ++ rest →
      step s = perform (.write (s.params.baseAddr + off) 4 (BitVec.ofNat 32 v)) { s with pending := rest }) ∧
    (∀ off, s.pending = (HostLine.rd off).expand s.params ++ rest →
      step s = perform (.read (s.params.baseAddr + off) 4) { s with pending := rest }) ∧
    (∀ i, s.pending = (HostLine.command i).expand s.params ++ rest → step s = exec i { s with pending := rest }) ∧
    (∀ nout nr ng nb, s.pending = (HostLine.cfg nout nr ng nb).expand s.params ++ rest →
      ∃ s1 s2 s3, step s = .next s1 ∧ step s1 = .next s2 ∧ step s2 = .next s3 ∧ step s3 = .next { s with
        pending := rest, nout := BitVec.ofNat 8 nout, gridR := BitVec.ofNat 9 nr, gridG := BitVec.ofNat 9 ng,
        gridB := BitVec.ofNat 9 nb }) ∧
    (∀ on, s.pending = (HostLine.sat on).expand s.params ++ rest →
      step s = .next { s with pending := rest, sat := on }) ∧
    (s.pending = HostLine.clrerr.expand s.params ++ rest →
      step s = .next { s with pending := rest, err := false, ecode := 0 }) ∧
    (∀ j v, s.params.Legal → j < s.params.densDepth → s.pending = (HostLine.ldDens j v).expand s.params ++ rest →
      ∃ t, step s = .next t ∧ t.dens j = some (BitVec.ofNat 16 v) ∧
        (∀ x, x < 0x40000 + 4 * j ∨ 0x40000 + 4 * j + 2 ≤ x → t.mem.byte x = s.mem.byte x) ∧
        t = { s with pending := rest, mem := t.mem }) ∧
    (∀ (a : Axis) (i : Byte) (base frac : Nat), base < 65536 → frac < 65536 →
      s.pending = (HostLine.ldGs a.index i.toNat base frac).expand s.params ++ rest →
      ∃ t, step s = .next t ∧ t.gs a i = some ⟨BitVec.ofNat 16 base, BitVec.ofNat 16 frac⟩ ∧
        (∀ x, x < 0x01000 + 0x400 * a.index + 4 * i.toNat ∨ 0x01000 + 0x400 * a.index + 4 * i.toNat + 4 ≤ x →
          t.mem.byte x = s.mem.byte x) ∧
        t = { s with pending := rest, mem := t.mem }) ∧
    (∀ k, s.params.Legal → k < s.params.maxOut → s.pending = (HostLine.rdOut k).expand s.params ++ rest →
      ∃ v : Word, step s = .next { s with pending := rest, results := v :: s.results } ∧
        v.toNat = (s.outReg k).toNat) ∧
    (s.pending = HostLine.rdStatus.expand s.params ++ rest →
      ∃ v : Word, step s = .next { s with pending := rest, results := v :: s.results } ∧
        v.toNat = 16 * s.ecode.toNat + 2 * s.err.toNat + s.lastOk.toNat)

/-! ## Reset and invariants -/

/-- 10_state.md R35: the state after reset, for every implementation; every command but NOP raises BAD_CONFIG in it. -/
def Obligations.ResetLeavesTheStatedValues : Prop :=
  State.reset = State.atReset Params.default ∧
  ∀ p : Params,
    (State.atReset p).ctrlWord = 0 ∧ (State.atReset p).statusWord = 0 ∧ (State.atReset p).nout = 0 ∧
    (∀ a, (State.atReset p).gridN a = 0) ∧
    ((State.atReset p).out.length = p.maxOut ∧ ∀ k, (State.atReset p).outReg k = 0) ∧
    (∀ a i, (State.atReset p).gs a i = none) ∧ (∀ j, (State.atReset p).dens j = none) ∧
    (State.atReset p).slotValue .id = some 0x54490001 ∧ (State.atReset p).slotValue .caps = some (capsWord p) ∧
    (State.atReset p).slotValue .depth = some (depthWord p) ∧
    (∀ i, i ≠ .nop → exec i (State.atReset p) = .next (raised 3 (State.atReset p)))

/-- 70_reset_and_hazards.md R100, 10_state.md R35: a reset of the running block puts every register at its reset value and
leaves the RAMs unwritten. What the host holds stays: the model's choice (log entry 11). -/
def Obligations.ResetEventResetsTheBlock : Prop :=
  ∀ (s : State) (rest : List BusEvent), s.pending = .reset :: rest →
    ∃ t, step s = .next t ∧ t = { State.atReset s.params with
      pending := rest, results := s.results, draws := s.draws } ∧
      (∀ a i, t.gs a i = none) ∧ (∀ j, t.dens j = none) ∧ t.statusWord = 0 ∧ t.ctrlWord = 0

/-- The invariant holds after reset, for every implementation whose parameters are in the ranges of 00_scope.md R6. -/
def Obligations.ResetSatisfiesInv : Prop :=
  State.reset.Inv ∧ ∀ p : Params, p.Legal → (State.atReset p).Inv

/-- Every step keeps the invariant: legal parameters, MAX_OUT output registers, memory in canonical form that holds whole
entries of the RAMs and nothing else (20_memory.md R40), and a STATUS whose ECODE is 0 while ERR = 0 and else one of the
codes that are raised (10_state.md R24, 60_exceptions.md R86). -/
def Obligations.EveryStepKeepsInv : Prop :=
  ∀ s t : State, s.Inv → step s = .next t → t.Inv

/-- Memories in canonical form that read alike at every offset are equal (log entry 9). -/
def Obligations.MemoriesThatReadAlikeAreEqual : Prop :=
  ∀ m m' : Memory, m.wf → m'.wf → (∀ a, m.byte a = m'.byte a) → m = m'

/-! ## Errors -/

/-- 60_exceptions.md R87 and R86: the error procedure, with the code of each error. -/
def Obligations.RaiseErrorKeepsTheFirstCode : Prop :=
  ∀ s : State,
    raiseError .gridAccessOutOfRange s = raised 1 s ∧ raiseError .illegalCommand s = raised 2 s ∧
    raiseError .badConfig s = raised 3 s

/-- 60_exceptions.md R89: after an erroneous command, or a word that is none, only STATUS differs, as R87 sets it, with a
code that is raised. -/
def Obligations.ErroneousCommandChangesOnlyStatus : Prop :=
  (∀ (i : Instr) (s t : State), exec i s = .next t → t.lastOk = false →
    t = raised 1 s ∨ t = raised 2 s ∨ t = raised 3 s) ∧
  (∀ (w : Word) (s t : State), execute w s = .next t → t.lastOk = false →
    t = raised 1 s ∨ t = raised 2 s ∨ t = raised 3 s)

/-- 10_state.md R24, 40_control.md R62: LAST_OK says whether the command completed; a completed command leaves ERR and
ECODE, an erroneous one sets ERR. -/
def Obligations.LastOkTellsCompletionFromError : Prop :=
  ∀ (i : Instr) (s t : State), exec i s = .next t →
    (t.lastOk = true ∧ t.err = s.err ∧ t.ecode = s.ecode) ∨
    (t.lastOk = false ∧ t.err = true ∧ (s.err = true → t.ecode = s.ecode) ∧ (s.err = false → t.ecode ≠ 0))

/-- 10_state.md R24: ERR is sticky. Only a STATUS write with bit 1 = 1 or a reset clears it, and while it is set no other
event changes ECODE. -/
def Obligations.ErrIsSticky : Prop :=
  ∀ s t : State, s.err = true → step s = .next t →
    (t.err = true ∧ t.ecode = s.ecode) ∨ s.pending.head? = some .reset ∨
    ∃ v : Word, s.pending.head? = some (.write (s.params.baseAddr + 0x0C) 4 v) ∧ v.getLsbD 1 = true

/-- 40_control.md R63: whatever STATUS holds, a command does the same, but for STATUS. -/
def Obligations.EarlierErrorsDoNotChangeLaterCommands : Prop :=
  ∀ (i : Instr) (s : State) (l e : Bool) (c : BitVec 4),
    (∀ t, exec i s = .next t → ∃ t', exec i { s with lastOk := l, err := e, ecode := c } = .next t' ∧
      t'.withoutStatus = t.withoutStatus ∧ t'.lastOk = t.lastOk) ∧
    (∀ f, exec i s = .fault f → exec i { s with lastOk := l, err := e, ecode := c } = .fault f)

/-- 60_exceptions.md R88: BAD_CONFIG is raised before any coordinate is looked at, and before any entry is read. -/
def Obligations.BadConfigComesBeforeRange : Prop :=
  ∀ (s : State) (x y z : Byte), ¬ CfgOK s →
    exec (.lookup x y z) s = .next (raised 3 s) ∧ exec (.interp x y z) s = .next (raised 3 s)

/-- 60_exceptions.md R90, 10_state.md R36, 20_memory.md R44: a command ends in a next state, or stops at an entry that
nothing has written and names it and the command; it is never refused. -/
def Obligations.OnlyUnwrittenEntriesStopACommand : Prop :=
  ∀ (i : Instr) (s : State),
    (∃ t, exec i s = .next t) ∨ ∃ e : RamEntry, Unwritten s e ∧ exec i s = .fault (.uninitRead i e)

/-- 10_state.md R36: where a command stops. The GridSample entries are read on axes R, G, B in turn, the densities channel
by channel, those of an INTERP along the path of its case. Which of several unwritten entries is named is the model's
choice (log entry 7). -/
def Obligations.UnwrittenEntryStopsItsReader : Prop :=
  ∀ (s : State) (x y z : Byte), CfgOK s →
    (s.gs .r x = none → exec (.interp x y z) s = .fault (.uninitRead (.interp x y z) (.gs .r x))) ∧
    ((s.gs .r x).isSome → s.gs .g y = none →
      exec (.interp x y z) s = .fault (.uninitRead (.interp x y z) (.gs .g y))) ∧
    ((s.gs .r x).isSome → (s.gs .g y).isSome → s.gs .b z = none →
      exec (.interp x y z) s = .fault (.uninitRead (.interp x y z) (.gs .b z))) ∧
    (∀ (p : Samples) (o : Axis × Axis × Axis) (k : Nat) (before after : List Corner) (c : Corner),
      s.gs .r x = some p.r → s.gs .g y = some p.g → s.gs .b z = some p.b → CubeInGrid s p →
      caseOrder (classify p.r.frac.toNat p.g.frac.toNat p.b.frac.toNat) = some o → k < s.noutN →
      path o = before ++ c :: after → s.dens (cornerIndex s p k c) = none →
      (∀ c' ∈ before, (s.dens (cornerIndex s p k c')).isSome) →
      (∀ k', k' < k → ∀ c' ∈ path o, (s.dens (cornerIndex s p k' c')).isSome) →
      exec (.interp x y z) s = .fault (.uninitRead (.interp x y z) (.dens (cornerIndex s p k c)))) ∧
    (∀ k, x.toNat < s.gridN .r → y.toNat < s.gridN .g → z.toNat < s.gridN .b → k < s.noutN →
      s.dens (s.densIndex x.toNat y.toNat z.toNat k) = none →
      (∀ k', k' < k → (s.dens (s.densIndex x.toNat y.toNat z.toNat k')).isSome) →
      exec (.lookup x y z) s =
        .fault (.uninitRead (.lookup x y z) (.dens (s.densIndex x.toNat y.toNat z.toNat k))))

/-! ## What the commands do -/

/-- 40_control.md R64: NOP sets LAST_OK and does nothing else, even after reset, where STATUS becomes 0x0000_0001; its one
word is 0, and every other word with OP = 0 is illegal. -/
def Obligations.NopSetsLastOkOnly : Prop :=
  (∀ s : State, exec .nop s = .next { s with lastOk := true }) ∧
  (∃ t, exec .nop State.reset = .next t ∧ t.statusWord = 1) ∧
  (∀ w : Word, decode w = .ok .nop ↔ w = 0) ∧
  (∀ (w : Word) (s : State), w.toNat / 2 ^ 28 = 0 → w ≠ 0 → execute w s = .next (raised 2 s))

/-- 41_sampler.md R68: BUILD under GridOK writes every entry of the three arrays with Sample(n_a, i), sets LAST_OK, and
leaves every other byte and register; else it raises BAD_CONFIG and writes no entry. -/
def Obligations.BuildFillsTheArrays : Prop :=
  ∀ s : State,
    (GridOK s → ∃ t, exec .build s = .next t ∧ (∀ a i, t.gs a i = some (sample (s.gridN a) i)) ∧
      (∀ x, x < 0x01000 ∨ 0x01C00 ≤ x → t.mem.byte x = s.mem.byte x) ∧
      t = { s with mem := t.mem, lastOk := true }) ∧
    (¬ GridOK s → exec .build s = .next (raised 3 s))

/-- 41_sampler.md R67: the steps of Sample, and that its position is the integer nearest to i * D * 65536 / 255, never a
tie. -/
def Obligations.SampleIsTheNearestPosition : Prop :=
  ∀ (n : Nat) (i : Byte), 1 ≤ n → n ≤ 256 →
    let v := 65536 * (sample n i).base.toNat + (sample n i).frac.toNat
    let p := ((i.toNat <<< 8) ||| i.toNat) * (n - 1)
    v = p + (p + 0x7FFF) / 0xFFFF ∧ p ≤ 16711425 ∧ p + 0x7FFF < 2 ^ 25 ∧ v ≤ 0x00FF0000 ∧
    (2 * 255 * v < 2 * (i.toNat * (n - 1) * 65536) + 255 ∧ 2 * (i.toNat * (n - 1) * 65536) < 2 * 255 * v + 255)

/-- 41_sampler.md R69, items 1, 3 and 4: a built array is monotone, runs from vertex 0 to vertex n - 1, and never points
past the top vertex. -/
def Obligations.BuiltArraysAreMonotoneAndInRange : Prop :=
  ∀ (n : Nat) (i j : Byte), 1 ≤ n → n ≤ 256 →
    (i.toNat ≤ j.toNat → (sample n i).base.toNat ≤ (sample n j).base.toNat) ∧
    sample n 0 = ⟨0, 0⟩ ∧ sample n 255 = ⟨BitVec.ofNat 16 (n - 1), 0⟩ ∧
    (sample n i).base.toNat ≤ n - 1 ∧ ((sample n i).base.toNat = n - 1 → (sample n i).frac = 0)

/-- 41_sampler.md R69, item 4: an INTERP that reads arrays BUILD wrote with the current GRIDN values never raises
GRID_ACCESS_OUT_OF_RANGE; under CfgOK it raises nothing. -/
def Obligations.InterpAfterBuildNeverLeavesTheGrid : Prop :=
  ∀ (s t u : State) (r g b : Byte), s.params.Legal → CfgOK s → exec .build s = .next t →
    exec (.interp r g b) t = .next u → u.lastOk = true ∧ u.err = s.err

/-- 42_lut_access.md R71: the index function, one-to-one from the grid's vertices and channels onto 0 .. NOUT*n_R*n_G*n_B - 1,
which CfgOK bounds by DENS_DEPTH. -/
def Obligations.DensIndexIsOneToOneOnto : Prop :=
  ∀ s : State,
    (∀ x y z k, s.densIndex x y z k = ((x * s.gridN .g + y) * s.gridN .b + z) * s.noutN + k) ∧
    (∀ x y z k, x < s.gridN .r → y < s.gridN .g → z < s.gridN .b → k < s.noutN →
      s.densIndex x y z k < s.noutN * s.gridN .r * s.gridN .g * s.gridN .b ∧
      (CfgOK s → s.densIndex x y z k < s.params.densDepth)) ∧
    (∀ x y z k x' y' z' k', y < s.gridN .g → z < s.gridN .b → k < s.noutN →
      y' < s.gridN .g → z' < s.gridN .b → k' < s.noutN →
      s.densIndex x y z k = s.densIndex x' y' z' k' → x = x' ∧ y = y' ∧ z = z' ∧ k = k') ∧
    (∀ j, j < s.noutN * s.gridN .r * s.gridN .g * s.gridN .b →
      ∃ x y z k, x < s.gridN .r ∧ y < s.gridN .g ∧ z < s.gridN .b ∧ k < s.noutN ∧ s.densIndex x y z k = j)

/-- 42_lut_access.md R73: LOOKUP of a vertex of the grid puts its NOUT densities in OUT, sets LAST_OK and leaves all else;
BAD_CONFIG without CfgOK; GRID_ACCESS_OUT_OF_RANGE for a vertex outside the grid. -/
def Obligations.LookupReturnsTheVertex : Prop :=
  ∀ (s : State) (x y z : Byte) (d : Nat → U16),
    (CfgOK s → x.toNat < s.gridN .r → y.toNat < s.gridN .g → z.toNat < s.gridN .b →
      (∀ k, k < s.noutN → s.dens (s.densIndex x.toNat y.toNat z.toNat k) = some (d k)) →
      ∃ t, exec (.lookup x y z) s = .next t ∧ (∀ k, k < s.noutN → t.outReg k = d k) ∧
        (∀ k, s.noutN ≤ k → t.outReg k = s.outReg k) ∧ t = { s with out := t.out, lastOk := true }) ∧
    (¬ CfgOK s → exec (.lookup x y z) s = .next (raised 3 s)) ∧
    (CfgOK s → ¬ (x.toNat < s.gridN .r ∧ y.toNat < s.gridN .g ∧ z.toNat < s.gridN .b) →
      exec (.lookup x y z) s = .next (raised 1 s))

/-- 43_interp.md R83, with R74, R75, R79, R82: INTERP under CfgOK, with its three GridSample entries written, its cube in
the grid and the four corners of its case written on every channel, puts in OUT[k] the converted combination of the path's
coefficients, sets LAST_OK, and leaves every other register and every byte of memory. -/
def Obligations.InterpReturnsTheInterpolatedPixel : Prop :=
  ∀ (s : State) (r g b : Byte) (p : Samples) (o : Axis × Axis × Axis) (D : Nat → Corner → U16),
    CfgOK s → s.gs .r r = some p.r → s.gs .g g = some p.g → s.gs .b b = some p.b → CubeInGrid s p →
    caseOrder (classify p.r.frac.toNat p.g.frac.toNat p.b.frac.toNat) = some o →
    (∀ k, k < s.noutN → ∀ c ∈ path o, s.dens (cornerIndex s p k c) = some (D k c)) →
    ∃ t, exec (.interp r g b) s = .next t ∧
      (∀ k, k < s.noutN → t.outReg k = convert s.sat
        (combine s.params.arith (pathCoeffs (D k) o) p.r.frac.toNat p.g.frac.toNat p.b.frac.toNat)) ∧
      (∀ k, s.noutN ≤ k → t.outReg k = s.outReg k) ∧ t = { s with out := t.out, lastOk := true }

/-- 43_interp.md R76 and R75: a coordinate at or above its axis's grid count raises GRID_ACCESS_OUT_OF_RANGE, before any
density is read (no density need be written) and with no OUT register written. -/
def Obligations.InterpOutsideTheGridRaises : Prop :=
  ∀ (s : State) (r g b : Byte) (p : Samples), CfgOK s → s.gs .r r = some p.r → s.gs .g g = some p.g →
    s.gs .b b = some p.b → ¬ CubeInGrid s p → exec (.interp r g b) s = .next (raised 1 s)

/-- 43_interp.md R77 and R78: the case is that of the first condition in the document's list that holds, and one always
does, so that NONE is never taken. -/
def Obligations.ClassifyTakesTheFirstCondition : Prop :=
  ∀ fr fg fb : Nat,
    (caseList.find? (fun c => decide (Holds c.2 fr fg fb))).map (·.1) = some (classify fr fg fb) ∧
    classify fr fg fb ≠ .noCase

/-- 43_interp.md R79, R78: the coefficients of a case are its path's, each in -65535 .. 65535, and only the path's corners
are read; NONE reads the low corner only and has the deltas 0. -/
def Obligations.CornerTableFollowsThePaths : Prop :=
  ∀ (d : Corner → Except Fault U16) (D : Corner → U16),
    (∀ (τ : Tetra) (o : Axis × Axis × Axis), caseOrder τ = some o → (∀ c ∈ path o, d c = .ok (D c)) →
      coeffs d τ = .ok (pathCoeffs D o) ∧ path o = lowCorner :: (path o).tail ∧
      (path o).getLast? = some ⟨true, true, true⟩ ∧
      ∀ a, -65535 ≤ delta D o a ∧ delta D o a ≤ 65535) ∧
    (d lowCorner = .ok (D lowCorner) → coeffs d .noCase = .ok ⟨(D lowCorner).toNat, 0, 0, 0⟩)

/-- 43_interp.md R80: rest, t and v are the s32 numbers congruent to the sums (WRAP32), or the exact ones (WIDE). -/
def Obligations.CombineFoldsWithTheBias : Prop :=
  ∀ (c : Coeffs) (fr fg fb : Nat) (rest t v : Int),
    (IsS32 rest ∧ (2 ^ 32 : Int) ∣ rest - (c.c1 * fr + c.c2 * fg + c.c3 * fb + 0x8001) →
      IsS32 t ∧ (2 ^ 32 : Int) ∣ t - (rest + Int.fdiv rest 65536) →
      IsS32 v ∧ (2 ^ 32 : Int) ∣ v - (c.c0 + Int.fdiv t 65536) →
      combine .wrap32 c fr fg fb = v) ∧
    (rest = c.c1 * fr + c.c2 * fg + c.c3 * fb + 0x8001 →
      combine .wide c fr fg fb = c.c0 + Int.fdiv (rest + Int.fdiv rest 65536) 65536)

/-- 43_interp.md R81: truncation to 16 bits with SAT = 0, clamping to 0 .. 65535 with SAT = 1. -/
def Obligations.ConvertTruncatesOrClamps : Prop :=
  ∀ v : Int,
    ((convert false v).toNat : Int) = v % 65536 ∧
    ((convert true v).toNat : Int) = max 0 (min v 65535)

/-- 00_scope.md R8 and R9: wrap32 is the congruent s32, asr the floor of the quotient. -/
def Obligations.WrapAndShiftAreExact : Prop :=
  ∀ (v : Int) (n : Nat),
    IsS32 (wrap32 v) ∧ (2 ^ 32 : Int) ∣ v - wrap32 v ∧
    asr v n * 2 ^ n ≤ v ∧ v < (asr v n + 1) * 2 ^ n

/-! ## Properties of the interpolation -/

/-- 43_interp.md R84, item 1: an input on a grid vertex gives the stored density exactly, on every channel, in both
ARITH_MODEs and for both values of SAT. Only the densities of the case RGB need be written, and all its corners are that
vertex. -/
def Obligations.VertexInputGivesTheStoredDensity : Prop :=
  ∀ (s : State) (r g b : Byte) (x y z : U16) (d : Nat → U16),
    CfgOK s → s.gs .r r = some ⟨x, 0⟩ → s.gs .g g = some ⟨y, 0⟩ → s.gs .b b = some ⟨z, 0⟩ →
    x.toNat < s.gridN .r → y.toNat < s.gridN .g → z.toNat < s.gridN .b →
    (∀ k, k < s.noutN → s.dens (s.densIndex x.toNat y.toNat z.toNat k) = some (d k)) →
    ∃ t, exec (.interp r g b) s = .next t ∧ t.lastOk = true ∧ ∀ k, k < s.noutN → t.outReg k = d k

/-- 43_interp.md R84, item 2: at a tie every case whose condition holds gives the same weighted sum, hence the same result
in either ARITH_MODE. -/
def Obligations.TiedCasesGiveTheSameResult : Prop :=
  ∀ (D : Corner → U16) (fr fg fb : Nat) (τ τ' : Tetra) (o o' : Axis × Axis × Axis) (c c' : Coeffs) (mode : ArithMode),
    caseOrder τ = some o → caseOrder τ' = some o' → Holds o fr fg fb → Holds o' fr fg fb →
    coeffs (fun q => .ok (D q)) τ = .ok c → coeffs (fun q => .ok (D q)) τ' = .ok c' →
    weightedSum c fr fg fb = weightedSum c' fr fg fb ∧ combine mode c fr fg fb = combine mode c' fr fg fb

/-- 43_interp.md R84, item 3: channels whose densities are equal at every corner get equal outputs. -/
def Obligations.EqualChannelsGiveEqualOutputs : Prop :=
  ∀ (s t : State) (r g b : Byte) (p : Samples) (k k' : Nat),
    s.gs .r r = some p.r → s.gs .g g = some p.g → s.gs .b b = some p.b → k < s.noutN → k' < s.noutN →
    (∀ c : Corner, s.dens (cornerIndex s p k c) = s.dens (cornerIndex s p k' c)) →
    exec (.interp r g b) s = .next t → t.lastOk = true → t.outReg k = t.outReg k'

/-- 43_interp.md R84, item 4: in WIDE mode the result lies between the least and the greatest density among the corners the
case reads, so truncation and saturation agree. -/
def Obligations.WideResultStaysBetweenTheCorners : Prop :=
  ∀ (D : Corner → U16) (fr fg fb lo hi : U16) (o : Axis × Axis × Axis),
    caseOrder (classify fr.toNat fg.toNat fb.toNat) = some o →
    (∀ c ∈ path o, lo.toNat ≤ (D c).toNat ∧ (D c).toNat ≤ hi.toNat) →
    let v := combine .wide (pathCoeffs D o) fr.toNat fg.toNat fb.toNat
    (lo.toNat : Int) ≤ v ∧ v ≤ hi.toNat ∧ convert true v = convert false v

/-- 43_interp.md R85: inside the band WRAP32 and WIDE give the same v; in particular where every corner the case reads
differs from c0 by at most 32766. -/
def Obligations.WrapAgreesWithWideInsideTheBand : Prop :=
  (∀ (c : Coeffs) (fr fg fb : Nat), 0 ≤ c.c0 → c.c0 ≤ 65535 →
    -0x7FFE0000 ≤ weightedSum c fr fg fb → weightedSum c fr fg fb ≤ 0x7FFE0000 →
    combine .wrap32 c fr fg fb = combine .wide c fr fg fb) ∧
  (∀ (D : Corner → U16) (fr fg fb : U16) (o : Axis × Axis × Axis),
    caseOrder (classify fr.toNat fg.toNat fb.toNat) = some o →
    (∀ c ∈ path o, (D c).toNat ≤ (D lowCorner).toNat + 32766 ∧ (D lowCorner).toNat ≤ (D c).toNat + 32766) →
    combine .wrap32 (pathCoeffs D o) fr.toNat fg.toNat fb.toNat =
      combine .wide (pathCoeffs D o) fr.toNat fg.toNat fb.toNat)

/-- 43_interp.md R85: with SAT = 0 the WRAP32 output differs from the WIDE output by at most one unit modulo 2^16, on every
table. -/
def Obligations.WrapIsWithinOneUnitOfWide : Prop :=
  ∀ (D : Corner → U16) (fr fg fb : U16) (o : Axis × Axis × Axis),
    caseOrder (classify fr.toNat fg.toNat fb.toNat) = some o →
    let w := convert false (combine .wrap32 (pathCoeffs D o) fr.toNat fg.toNat fb.toNat)
    let x := convert false (combine .wide (pathCoeffs D o) fr.toNat fg.toNat fb.toNat)
    w = x ∨ w = x + 1 ∨ x = w + 1

/-! ## Whole-machine rules -/

/-- 10_state.md R29, R33, 20_memory.md R44, 70_reset_and_hazards.md R106: no command writes a configuration register, a
density or anything of the host's; only BUILD writes GridSample entries; only a completed INTERP or LOOKUP writes OUT, and
only below NOUT. -/
def Obligations.CommandsWriteOnlyWhatTheyMay : Prop :=
  ∀ (i : Instr) (s t : State), exec i s = .next t →
    t = { s with out := t.out, mem := t.mem, lastOk := t.lastOk, err := t.err, ecode := t.ecode } ∧
    (∀ x, x < 0x01000 ∨ 0x01C00 ≤ x → t.mem.byte x = s.mem.byte x) ∧ (∀ j, t.dens j = s.dens j) ∧
    (i ≠ .build ∨ t.lastOk = false → t.mem = s.mem) ∧
    (i = .nop ∨ i = .build ∨ t.lastOk = false → t.out = s.out) ∧ (∀ k, s.noutN ≤ k → t.outReg k = s.outReg k)

/-- 20_memory.md R49: a command's effect is a function of its word and the state of R14; and two INTERPs (or LOOKUPs) with the
same operands and the same tables, configuration and CTRL write the same OUT values, whatever OUT and STATUS held. -/
def Obligations.CommandsDependOnlyOnTheBlock : Prop :=
  ∀ (i : Instr) (s : State),
    (∀ (q : List BusEvent) (res : List Word) (n : Nat) (t : State), exec i s = .next t →
      exec i { s with pending := q, results := res, draws := n } =
        .next { t with pending := q, results := res, draws := n }) ∧
    (∀ (s' t : State), s' = { s with
        lastOk := s'.lastOk, err := s'.err, ecode := s'.ecode, out := s'.out, pending := s'.pending,
        results := s'.results, draws := s'.draws } → i ≠ .nop → i ≠ .build →
      exec i s = .next t → t.lastOk = true →
      ∃ t', exec i s' = .next t' ∧ t'.lastOk = true ∧ ∀ k, k < s.noutN → t'.outReg k = t.outReg k)

/-- 70_reset_and_hazards.md R102: once the configuration is legal and the tables are full, every command completes or
raises an error; none stops. NOP, BUILD, and a LOOKUP inside the grid complete. -/
def Obligations.FullTablesLetEveryCommandRun : Prop :=
  ∀ s : State, CfgOK s → s.TablesFull →
    (∀ i, ∃ t, exec i s = .next t) ∧
    (∃ t, exec .build s = .next t ∧ t.lastOk = true) ∧
    (∀ x y z : Byte, x.toNat < s.gridN .r → y.toNat < s.gridN .g → z.toNat < s.gridN .b →
      ∃ t, exec (.lookup x y z) s = .next t ∧ t.lastOk = true)

/-! ## Host accesses -/

/-- 20_memory.md R41, R43, R40: what a 32-bit read returns, offset by offset, and that nothing of the block changes. What a
read of an entry that nothing has written returns is said in UnwrittenReadsDrawAFreeValue. -/
def Obligations.HostReadReturnsTheRegister : Prop :=
  ∀ (s : State) (off : Nat) (rest : List BusEvent), s.params.Legal → off % 4 = 0 → off ≤ 0x7FFFC →
    s.pending = .read (s.params.baseAddr + off) 4 :: rest →
    ∃ (v : Word) (n : Nat),
      step s = .next { s with pending := rest, results := v :: s.results, draws := n } ∧
      (off = 0x00 → v = 0x54490001) ∧
      (off = 0x04 → v.toNat = s.params.maxOut + (if s.params.arith = .wide then 256 else 0) + 65536 * s.params.maxGrid) ∧
      (off = 0x08 → v.toNat = s.sat.toNat) ∧
      (off = 0x0C → v.toNat = 16 * s.ecode.toNat + 2 * s.err.toNat + s.lastOk.toNat) ∧
      (off = 0x10 → v = 0) ∧
      (off = 0x14 → v.toNat = s.noutN) ∧
      (off = 0x18 → v.toNat = s.gridN .r) ∧ (off = 0x1C → v.toNat = s.gridN .g) ∧ (off = 0x20 → v.toNat = s.gridN .b) ∧
      (off = 0x24 → v.toNat = s.params.densDepth) ∧
      (∀ k, k < s.params.maxOut → off = 0x00100 + 4 * k → v.toNat = (s.outReg k).toNat) ∧
      (∀ (a : Axis) (i : Byte) (e : GridSample), off = 0x01000 + 0x400 * a.index + 4 * i.toNat → s.gs a i = some e →
        v.toNat = 65536 * e.frac.toNat + e.base.toNat) ∧
      (∀ j d, j < s.params.densDepth → off = 0x40000 + 4 * j → s.dens j = some d → v.toNat = d.toNat) ∧
      (¬ Named s.params off → v = 0)

/-- 20_memory.md R42, R43, 10_state.md R19, R23 to R33: what a 32-bit write does, offset by offset, with its frame. -/
def Obligations.HostWriteUpdatesTheRegister : Prop :=
  ∀ (s : State) (off : Nat) (v : Word) (rest : List BusEvent), s.params.Legal → off % 4 = 0 → off ≤ 0x7FFFC →
    s.pending = .write (s.params.baseAddr + off) 4 v :: rest →
    (off = 0x00 ∨ off = 0x04 ∨ off = 0x24 ∨ (∃ k, k < s.params.maxOut ∧ off = 0x00100 + 4 * k) ∨ ¬ Named s.params off →
      step s = .next { s with pending := rest }) ∧
    (off = 0x08 → step s = .next { s with pending := rest, sat := v.getLsbD 0 }) ∧
    (off = 0x0C → step s = .next (if v.getLsbD 1 = true then { s with pending := rest, err := false, ecode := 0 }
      else { s with pending := rest })) ∧
    (off = 0x10 → step s = execute v { s with pending := rest }) ∧
    (off = 0x14 → step s = .next { s with pending := rest, nout := v.setWidth 8 }) ∧
    (off = 0x18 → step s = .next { s with pending := rest, gridR := v.setWidth 9 }) ∧
    (off = 0x1C → step s = .next { s with pending := rest, gridG := v.setWidth 9 }) ∧
    (off = 0x20 → step s = .next { s with pending := rest, gridB := v.setWidth 9 }) ∧
    (∀ (a : Axis) (i : Byte), off = 0x01000 + 0x400 * a.index + 4 * i.toNat →
      ∃ t, step s = .next t ∧ t.gs a i = some ⟨v.setWidth 16, (v >>> 16).setWidth 16⟩ ∧
        (∀ x, x < off ∨ off + 4 ≤ x → t.mem.byte x = s.mem.byte x) ∧ t = { s with pending := rest, mem := t.mem }) ∧
    (∀ j, j < s.params.densDepth → off = 0x40000 + 4 * j →
      ∃ t, step s = .next t ∧ t.dens j = some (v.setWidth 16) ∧
        (∀ x, x < off ∨ off + 2 ≤ x → t.mem.byte x = s.mem.byte x) ∧ t = { s with pending := rest, mem := t.mem })

/-- 20_memory.md R39, R41, R42: in the aperture, an access that is not 32 bits wide at a multiple of 4 is refused; and so is
every access on either side of the aperture. That the latter has a name of its own, and that an access both outside and
misaligned gets that name, is the model's choice (log entry 6). -/
def Obligations.InadmissibleAccessesAreRefused : Prop :=
  ∀ (s : State) (width : Nat) (v : Word) (rest : List BusEvent),
    (∀ off, (width ≠ 4 ∨ off % 4 ≠ 0) → off < 0x80000 →
      s.pending = .read (s.params.baseAddr + off) width :: rest ∨
        s.pending = .write (s.params.baseAddr + off) width v :: rest →
      step s = .refused (.busSubword (s.params.baseAddr + off) width)) ∧
    (∀ addr, addr < s.params.baseAddr ∨ s.params.baseAddr + 0x80000 ≤ addr →
      s.pending = .read addr width :: rest ∨ s.pending = .write addr width v :: rest →
      step s = .refused (.outsideAperture addr))

/-- 20_memory.md R40: writing the same value twice leaves the state as writing it once, at every offset but CMD (and at STATUS
too, where the model's clearing is idempotent as well). -/
def Obligations.RepeatedWritesAreIdempotent : Prop :=
  ∀ (s t : State) (off : Nat) (v : Word) (rest : List BusEvent), s.mem.wf → off ≠ 0x10 →
    s.pending = .write (s.params.baseAddr + off) 4 v :: .write (s.params.baseAddr + off) 4 v :: rest →
    step s = .next t → step t = .next { t with pending := rest }

/-- 10_state.md R18: no two offsets name the same register or entry. -/
def Obligations.RegisterMapIsOneToOne : Prop :=
  ∀ (p : Params) (off off' : Nat), off % 4 = 0 → off' % 4 = 0 → slotAt p off ≠ .reserved →
    slotAt p off = slotAt p off' → off = off'

/-- 20_memory.md R43, 10_state.md R18: an offset is reserved exactly where no register or entry is named. -/
def Obligations.ReservedOffsetsAreThoseNotNamed : Prop :=
  ∀ (p : Params) (off : Nat), p.Legal → off % 4 = 0 → (slotAt p off = .reserved ↔ ¬ Named p off)

/-- 10_state.md R20, R21, R22: the identification registers of the default implementation, and the parameters they report. -/
def Obligations.IdentificationReportsTheParameters : Prop :=
  capsWord Params.default = 0x01000010 ∧ depthWord Params.default = 0x00010000 ∧ idWord = 0x54490001 ∧
  ∀ p : Params, p.Legal →
    (capsWord p).toNat % 256 = p.maxOut ∧ ((capsWord p).getLsbD 8 = true ↔ p.arith = .wide) ∧
    (capsWord p).toNat / 512 % 128 = 0 ∧ (capsWord p).toNat / 65536 = p.maxGrid ∧ (depthWord p).toNat = p.densDepth

/-- 10_state.md R36: a host read of an entry that nothing has written returns a free value, a fresh one each time, and changes
nothing of the block. The form of the free value, and that bits [31:16] of such a DENS read are 0 (deduced from R33), are the
model's choice (log entry 8). -/
def Obligations.UnwrittenReadsDrawAFreeValue : Prop :=
  ∀ (s : State) (rest : List BusEvent),
    (∀ (a : Axis) (i : Byte), s.gs a i = none →
      s.pending = .read (s.params.baseAddr + (0x01000 + 0x400 * a.index + 4 * i.toNat)) 4 :: rest →
      step s = .next { s with
        pending := rest, results := Config.freeHostRead s.draws :: s.results, draws := s.draws + 1 }) ∧
    (∀ j, s.params.Legal → j < s.params.densDepth → s.dens j = none →
      s.pending = .read (s.params.baseAddr + (0x40000 + 4 * j)) 4 :: rest →
      ∃ v : Word, v.toNat = (Config.freeHostRead s.draws).toNat % 65536 ∧
        step s = .next { s with pending := rest, results := v :: s.results, draws := s.draws + 1 })
end

