-- ==== Sys2Proof/Laws/Memory.lean ====
section
/-! SUPPORT. What the memory operations do, said once: bytes, 16-bit halves, ranges, canonical form. -/

namespace Sys2Proof.Machine

@[simp] theorem Memory.byte_nil (a : Nat) : Memory.byte [] a = none := rfl

theorem Memory.byte_cons (k : Nat) (v : Byte) (m : Memory) (a : Nat) :
    Memory.byte ((k, v) :: m) a = if k = a then some v else m.byte a := rfl

/-- A write changes the byte written and no other. -/
@[simp] theorem Memory.byte_setByte (m : Memory) (a x : Nat) (v : Byte) :
    (m.setByte a v).byte x = if a = x then some v else m.byte x := by
  induction m with
  | nil => rfl
  | cons c rest ih =>
    obtain ⟨k, u⟩ := c
    simp only [Memory.setByte]
    split
    · rfl
    · split
      · rename_i h; subst h
        simp only [Memory.byte_cons]; split <;> rfl
      · rename_i h
        simp only [Memory.byte_cons, ih]
        split
        · rename_i h'; subst h'; simp [h]
        · rfl

theorem Memory.mem_setByte {m : Memory} {a : Nat} {v : Byte} {c : Host.Cell} (h : c ∈ m.setByte a v) :
    c = (a, v) ∨ c ∈ m := by
  induction m with
  | nil => simpa [Memory.setByte] using h
  | cons d rest ih =>
    obtain ⟨k, u⟩ := d
    simp only [Memory.setByte] at h
    split at h
    · simpa using h
    · split at h
      · simp only [List.mem_cons] at h ⊢; tauto
      · simp only [List.mem_cons] at h ⊢
        rcases h with h | h
        · exact .inr (.inl h)
        · rcases ih h with h | h
          · exact .inl h
          · exact .inr (.inr h)

/-- A write of one byte keeps the canonical form. -/
theorem Memory.wf_setByte {m : Memory} (hm : m.wf) (a : Nat) (v : Byte) : (m.setByte a v).wf := by
  induction m with
  | nil => simp [Memory.setByte, Memory.wf]
  | cons c rest ih =>
    obtain ⟨k, u⟩ := c
    rw [Memory.wf, List.pairwise_cons] at hm
    simp only [Memory.setByte]
    split
    · rename_i hlt
      rw [Memory.wf, List.pairwise_cons, List.pairwise_cons]
      refine ⟨fun d hd => ?_, hm⟩
      rcases List.mem_cons.1 hd with rfl | hd
      · exact hlt
      · exact Nat.lt_trans hlt (hm.1 d hd)
    · split
      · rename_i h; subst h
        rw [Memory.wf, List.pairwise_cons]; exact hm
      · rw [Memory.wf, List.pairwise_cons]
        refine ⟨fun d hd => ?_, ih hm.2⟩
        rcases Memory.mem_setByte hd with rfl | hd
        · simp only; omega
        · exact hm.1 d hd

/-- A write of a u16 keeps the canonical form. -/
theorem Memory.wf_setHalf {m : Memory} (hm : m.wf) (a : Nat) (v : U16) : (m.setHalf a v).wf :=
  Memory.wf_setByte (Memory.wf_setByte hm _ _) _ _

theorem Memory.byte_setHalf (m : Memory) (a x : Nat) (v : U16) :
    (m.setHalf a v).byte x =
      if x = a then some (lowByte v) else if x = a + 1 then some (highByte v) else m.byte x := by
  simp only [Memory.setHalf, Memory.byte_setByte]
  by_cases h1 : x = a
  · subst h1; simp
  · by_cases h2 : x = a + 1
    · subst h2; simp
    · simp [h1, h2, Ne.symm h1, Ne.symm h2]

/-- The two bytes of a u16 make it up again. -/
@[simp] theorem highByte_append_lowByte (v : U16) : highByte v ++ lowByte v = v := by
  apply BitVec.eq_of_getLsbD_eq
  intro i hi
  simp only [BitVec.getLsbD_append, highByte, lowByte, BitVec.getLsbD_extractLsb']
  by_cases h : i < 8
  · simp [h]
  · have : i - 8 < 8 := by omega
    have h' : 8 + (i - 8) = i := by omega
    simp [h, this, h']

/-- Reading back the u16 just written. -/
@[simp] theorem Memory.half_setHalf_same (m : Memory) (a : Nat) (v : U16) : (m.setHalf a v).half a = some v := by
  simp [Memory.half, Memory.byte_setHalf]

/-- A u16 write leaves every u16 that shares no byte with it. -/
theorem Memory.half_setHalf_other (m : Memory) {a x : Nat} (v : U16) (h : x + 1 < a ∨ a + 1 < x) :
    (m.setHalf a v).half x = m.half x := by
  have h1 : x ≠ a := by omega
  have h2 : x ≠ a + 1 := by omega
  have h3 : x + 1 ≠ a := by omega
  simp [Memory.half, Memory.byte_setHalf, h1, h2, h3]

theorem Memory.half_congr {m m' : Memory} {a : Nat} (h0 : m.byte a = m'.byte a)
    (h1 : m.byte (a + 1) = m'.byte (a + 1)) : m.half a = m'.half a := by
  simp [Memory.half, h0, h1]

theorem Memory.isSome_half (m : Memory) (a : Nat) :
    (m.half a).isSome = ((m.byte a).isSome && (m.byte (a + 1)).isSome) := by
  unfold Memory.half
  cases m.byte a <;> cases m.byte (a + 1) <;> rfl

/-! ## Lists of cells -/

theorem Memory.byte_append (m m' : Memory) (a : Nat) : Memory.byte (m ++ m') a = (m.byte a).or (m'.byte a) := by
  induction m with
  | nil => simp
  | cons c rest ih =>
    obtain ⟨k, u⟩ := c
    simp only [List.cons_append, Memory.byte_cons, ih]
    split <;> simp

theorem Memory.byte_filter (m : Memory) (q : Nat → Bool) (a : Nat) :
    Memory.byte (m.filter (fun c => q c.1)) a = if q a then m.byte a else none := by
  induction m with
  | nil => simp
  | cons c rest ih =>
    obtain ⟨k, u⟩ := c
    rw [List.filter_cons]
    by_cases hk : k = a
    · subst hk
      by_cases hq : q k <;> simp [hq, Memory.byte_cons, ih]
    · by_cases hq : q k <;> simp [hq, Memory.byte_cons, ih, hk]

theorem Memory.mem_of_byte {m : Memory} {a : Nat} {v : Byte} (h : m.byte a = some v) : (a, v) ∈ m := by
  induction m with
  | nil => simp at h
  | cons c rest ih =>
    obtain ⟨k, u⟩ := c
    rw [Memory.byte_cons] at h
    split at h
    · rename_i hk; subst hk; simp_all
    · exact List.mem_cons_of_mem _ (ih h)

theorem Memory.byte_of_mem {m : Memory} (hm : m.wf) {c : Host.Cell} (h : c ∈ m) : m.byte c.1 = some c.2 := by
  induction m with
  | nil => simp at h
  | cons d rest ih =>
    obtain ⟨k, u⟩ := d
    rw [Memory.wf, List.pairwise_cons] at hm
    rw [Memory.byte_cons]
    rcases List.mem_cons.1 h with rfl | h
    · simp
    · have := hm.1 c h
      rw [if_neg (by simp only at this; omega)]
      exact ih hm.2 h

theorem Memory.byte_none_of_keys {m : Memory} {a : Nat} (h : ∀ c ∈ m, c.1 ≠ a) : m.byte a = none := by
  cases hb : m.byte a with
  | none => rfl
  | some v => exact absurd rfl (h _ (Memory.mem_of_byte hb))

/-- Inside the range the new cells are read, outside it the old ones. -/
theorem Memory.byte_replaceRange (m : Memory) {lo hi : Nat} {new : Memory} (hle : lo ≤ hi)
    (hin : ∀ c ∈ new, lo ≤ c.1 ∧ c.1 < hi) (a : Nat) :
    (m.replaceRange lo hi new).byte a = if lo ≤ a ∧ a < hi then new.byte a else m.byte a := by
  simp only [Memory.replaceRange, Memory.byte_append]
  rw [Memory.byte_filter m (fun k => decide (k < lo)), Memory.byte_filter m (fun k => decide (hi ≤ k))]
  by_cases h1 : a < lo
  · have hn : new.byte a = none := Memory.byte_none_of_keys (fun c hc => by have := hin c hc; omega)
    have : ¬ (lo ≤ a ∧ a < hi) := by omega
    have h2 : ¬ hi ≤ a := by omega
    simp [h1, hn, this, h2]
  · by_cases h2 : hi ≤ a
    · have hn : new.byte a = none := Memory.byte_none_of_keys (fun c hc => by have := hin c hc; omega)
      have : ¬ (lo ≤ a ∧ a < hi) := by omega
      simp [h1, hn, this, h2]
    · have : lo ≤ a ∧ a < hi := by omega
      simp [h1, h2, this]

/-- Replacing a range by cells in canonical form keeps the canonical form. -/
theorem Memory.wf_replaceRange {m : Memory} (hm : m.wf) {lo hi : Nat} {new : Memory} (hnew : new.wf) (hle : lo ≤ hi)
    (hin : ∀ c ∈ new, lo ≤ c.1 ∧ c.1 < hi) : (m.replaceRange lo hi new).wf := by
  simp only [Memory.replaceRange, Memory.wf, List.pairwise_append, List.mem_append, List.mem_filter,
    decide_eq_true_eq]
  refine ⟨⟨List.Pairwise.filter _ hm, hnew, fun c hc d hd => ?_⟩, List.Pairwise.filter _ hm, fun c hc d hd => ?_⟩
  · have := hin d hd; omega
  · rcases hc with hc | hc
    · omega
    · have := hin c hc; omega

/-! ## The arrays BUILD writes -/

theorem mem_gsCells {addr : Nat} {e : GridSample} {c : Host.Cell} (h : c ∈ gsCells addr e) :
    addr ≤ c.1 ∧ c.1 < addr + 4 := by
  simp only [gsCells, List.mem_cons, List.not_mem_nil, or_false] at h
  rcases h with rfl | rfl | rfl | rfl <;> simp

theorem wf_gsCells (addr : Nat) (e : GridSample) : Memory.wf (gsCells addr e) := by
  simp [Memory.wf, gsCells]

theorem mem_builtCells {a : Axis} {n i count : Nat} {c : Host.Cell} (h : c ∈ builtCells a n i count) :
    0x01000 + 0x400 * a.index + 4 * i ≤ c.1 ∧ c.1 < 0x01000 + 0x400 * a.index + 4 * (i + count) := by
  induction count generalizing i with
  | zero => simp [builtCells] at h
  | succ k ih =>
    rw [builtCells, List.mem_append] at h
    rcases h with h | h
    · have := mem_gsCells h; omega
    · have := ih h; omega

theorem wf_builtCells (a : Axis) (n i count : Nat) : Memory.wf (builtCells a n i count) := by
  induction count generalizing i with
  | zero => simp [builtCells, Memory.wf]
  | succ k ih =>
    rw [builtCells, Memory.wf, List.pairwise_append]
    refine ⟨wf_gsCells _ _, ih _, fun c hc d hd => ?_⟩
    have := mem_gsCells hc
    have := mem_builtCells hd
    omega

/-- Byte `b` of entry `j` of a built array is byte `b` of Sample(n, j). -/
theorem byte_builtCells (a : Axis) (n : Nat) {i j count b : Nat} (hij : i ≤ j) (hj : j < i + count) (hb : b < 4) :
    Memory.byte (builtCells a n i count) (0x01000 + 0x400 * a.index + 4 * j + b) =
      Memory.byte (gsCells (0x01000 + 0x400 * a.index + 4 * j) (sample n (BitVec.ofNat 8 j)))
        (0x01000 + 0x400 * a.index + 4 * j + b) := by
  induction count generalizing i with
  | zero => omega
  | succ k ih =>
    rw [builtCells, Memory.byte_append]
    by_cases h : i = j
    · subst h
      have : Memory.byte (builtCells a n (i + 1) k) (0x01000 + 0x400 * a.index + 4 * i + b) = none :=
        Memory.byte_none_of_keys (fun c hc => by have := mem_builtCells hc; omega)
      rw [this, Option.or_none]
    · have : Memory.byte (gsCells (0x01000 + 0x400 * a.index + 4 * i) (sample n (BitVec.ofNat 8 i)))
          (0x01000 + 0x400 * a.index + 4 * j + b) = none :=
        Memory.byte_none_of_keys (fun c hc => by have := mem_gsCells hc; omega)
      rw [this, Option.none_or]
      exact ih (by omega) (by omega)

theorem mem_builtArrays {nR nG nB : Nat} {c : Host.Cell} (h : c ∈ builtArrays nR nG nB) :
    gsBegin ≤ c.1 ∧ c.1 < gsEnd := by
  simp only [builtArrays, List.mem_append] at h
  simp only [gsBegin, gsEnd]
  rcases h with (h | h) | h <;> have := mem_builtCells h <;> simp only [Axis.index] at this <;> omega

theorem wf_builtArrays (nR nG nB : Nat) : Memory.wf (builtArrays nR nG nB) := by
  simp only [builtArrays, Memory.wf, List.pairwise_append, List.mem_append]
  refine ⟨⟨wf_builtCells _ _ _ _, wf_builtCells _ _ _ _, fun c hc d hd => ?_⟩, wf_builtCells _ _ _ _, fun c hc d hd => ?_⟩
  · have := mem_builtCells hc
    have := mem_builtCells hd
    simp only [Axis.index] at *; omega
  · have hd := mem_builtCells hd
    rcases hc with hc | hc <;> have := mem_builtCells hc <;> simp only [Axis.index] at * <;> omega

/-- The count of grid points of an axis, of three. -/
def pickAxis (nR nG nB : Nat) : Axis → Nat
  | .r => nR
  | .g => nG
  | .b => nB

theorem byte_builtArrays (nR nG nB : Nat) (a : Axis) (i : Byte) {b : Nat} (hb : b < 4) :
    Memory.byte (builtArrays nR nG nB) (gsAddr a i + b) =
      Memory.byte (gsCells (gsAddr a i) (sample (pickAxis nR nG nB a) i)) (gsAddr a i + b) := by
  have hi := i.isLt
  have key (n : Nat) := byte_builtCells a n (i := 0) (j := i.toNat) (count := 256) (b := b) (by omega) (by omega) hb
  have off {a' : Axis} (n : Nat) (h : a' ≠ a) :
      Memory.byte (builtCells a' n 0 256) (gsAddr a i + b) = none :=
    Memory.byte_none_of_keys (fun c hc => by
      have := mem_builtCells hc
      cases a <;> cases a' <;> simp_all [Axis.index, gsAddr] <;> omega)
  simp only [builtArrays, Memory.byte_append]
  simp only [BitVec.ofNat_toNat, BitVec.setWidth_eq] at key
  cases a <;> simp only [gsAddr] at off ⊢ <;> simp [off, key, pickAxis]

end Sys2Proof.Machine
end

