-- ==== Sys2Proof/Laws/State.lean ====
section
/-! SUPPORT. Every field of State after every update of the model, so that no proof unfolds a record update. -/

namespace Sys2Proof.Machine

/-! ## complete -/

@[simp] theorem complete_params (s : State) : (complete s).params = s.params := rfl
@[simp] theorem complete_sat (s : State) : (complete s).sat = s.sat := rfl
@[simp] theorem complete_lastOk (s : State) : (complete s).lastOk = true := rfl
@[simp] theorem complete_err (s : State) : (complete s).err = s.err := rfl
@[simp] theorem complete_ecode (s : State) : (complete s).ecode = s.ecode := rfl
@[simp] theorem complete_nout (s : State) : (complete s).nout = s.nout := rfl
@[simp] theorem complete_gridR (s : State) : (complete s).gridR = s.gridR := rfl
@[simp] theorem complete_gridG (s : State) : (complete s).gridG = s.gridG := rfl
@[simp] theorem complete_gridB (s : State) : (complete s).gridB = s.gridB := rfl
@[simp] theorem complete_out (s : State) : (complete s).out = s.out := rfl
@[simp] theorem complete_mem (s : State) : (complete s).mem = s.mem := rfl
@[simp] theorem complete_pending (s : State) : (complete s).pending = s.pending := rfl
@[simp] theorem complete_results (s : State) : (complete s).results = s.results := rfl
@[simp] theorem complete_draws (s : State) : (complete s).draws = s.draws := rfl

/-! ## raiseError -/

@[simp] theorem raiseError_params (c : ErrorCode) (s : State) : (raiseError c s).params = s.params := rfl
@[simp] theorem raiseError_sat (c : ErrorCode) (s : State) : (raiseError c s).sat = s.sat := rfl
@[simp] theorem raiseError_lastOk (c : ErrorCode) (s : State) : (raiseError c s).lastOk = false := rfl
@[simp] theorem raiseError_err (c : ErrorCode) (s : State) : (raiseError c s).err = true := rfl
@[simp] theorem raiseError_ecode (c : ErrorCode) (s : State) : (raiseError c s).ecode =
    if s.err then s.ecode else c.code := rfl
@[simp] theorem raiseError_nout (c : ErrorCode) (s : State) : (raiseError c s).nout = s.nout := rfl
@[simp] theorem raiseError_gridR (c : ErrorCode) (s : State) : (raiseError c s).gridR = s.gridR := rfl
@[simp] theorem raiseError_gridG (c : ErrorCode) (s : State) : (raiseError c s).gridG = s.gridG := rfl
@[simp] theorem raiseError_gridB (c : ErrorCode) (s : State) : (raiseError c s).gridB = s.gridB := rfl
@[simp] theorem raiseError_out (c : ErrorCode) (s : State) : (raiseError c s).out = s.out := rfl
@[simp] theorem raiseError_mem (c : ErrorCode) (s : State) : (raiseError c s).mem = s.mem := rfl
@[simp] theorem raiseError_pending (c : ErrorCode) (s : State) : (raiseError c s).pending = s.pending := rfl
@[simp] theorem raiseError_results (c : ErrorCode) (s : State) : (raiseError c s).results = s.results := rfl
@[simp] theorem raiseError_draws (c : ErrorCode) (s : State) : (raiseError c s).draws = s.draws := rfl

/-! ## clearError -/

@[simp] theorem clearError_params (s : State) : (clearError s).params = s.params := rfl
@[simp] theorem clearError_sat (s : State) : (clearError s).sat = s.sat := rfl
@[simp] theorem clearError_lastOk (s : State) : (clearError s).lastOk = s.lastOk := rfl
@[simp] theorem clearError_err (s : State) : (clearError s).err = false := rfl
@[simp] theorem clearError_ecode (s : State) : (clearError s).ecode = 0 := rfl
@[simp] theorem clearError_nout (s : State) : (clearError s).nout = s.nout := rfl
@[simp] theorem clearError_gridR (s : State) : (clearError s).gridR = s.gridR := rfl
@[simp] theorem clearError_gridG (s : State) : (clearError s).gridG = s.gridG := rfl
@[simp] theorem clearError_gridB (s : State) : (clearError s).gridB = s.gridB := rfl
@[simp] theorem clearError_out (s : State) : (clearError s).out = s.out := rfl
@[simp] theorem clearError_mem (s : State) : (clearError s).mem = s.mem := rfl
@[simp] theorem clearError_pending (s : State) : (clearError s).pending = s.pending := rfl
@[simp] theorem clearError_results (s : State) : (clearError s).results = s.results := rfl
@[simp] theorem clearError_draws (s : State) : (clearError s).draws = s.draws := rfl

/-! ## resetBlock -/

@[simp] theorem resetBlock_params (s : State) : (resetBlock s).params = s.params := rfl
@[simp] theorem resetBlock_sat (s : State) : (resetBlock s).sat = false := rfl
@[simp] theorem resetBlock_lastOk (s : State) : (resetBlock s).lastOk = false := rfl
@[simp] theorem resetBlock_err (s : State) : (resetBlock s).err = false := rfl
@[simp] theorem resetBlock_ecode (s : State) : (resetBlock s).ecode = 0 := rfl
@[simp] theorem resetBlock_nout (s : State) : (resetBlock s).nout = 0 := rfl
@[simp] theorem resetBlock_gridR (s : State) : (resetBlock s).gridR = 0 := rfl
@[simp] theorem resetBlock_gridG (s : State) : (resetBlock s).gridG = 0 := rfl
@[simp] theorem resetBlock_gridB (s : State) : (resetBlock s).gridB = 0 := rfl
@[simp] theorem resetBlock_out (s : State) : (resetBlock s).out = List.replicate s.params.maxOut 0 := rfl
@[simp] theorem resetBlock_mem (s : State) : (resetBlock s).mem = [] := rfl
@[simp] theorem resetBlock_pending (s : State) : (resetBlock s).pending = s.pending := rfl
@[simp] theorem resetBlock_results (s : State) : (resetBlock s).results = s.results := rfl
@[simp] theorem resetBlock_draws (s : State) : (resetBlock s).draws = s.draws := rfl

/-! ## writeOut -/

@[simp] theorem writeOut_params (s : State) (res : List U16) : (s.writeOut res).params = s.params := rfl
@[simp] theorem writeOut_sat (s : State) (res : List U16) : (s.writeOut res).sat = s.sat := rfl
@[simp] theorem writeOut_lastOk (s : State) (res : List U16) : (s.writeOut res).lastOk = s.lastOk := rfl
@[simp] theorem writeOut_err (s : State) (res : List U16) : (s.writeOut res).err = s.err := rfl
@[simp] theorem writeOut_ecode (s : State) (res : List U16) : (s.writeOut res).ecode = s.ecode := rfl
@[simp] theorem writeOut_nout (s : State) (res : List U16) : (s.writeOut res).nout = s.nout := rfl
@[simp] theorem writeOut_gridR (s : State) (res : List U16) : (s.writeOut res).gridR = s.gridR := rfl
@[simp] theorem writeOut_gridG (s : State) (res : List U16) : (s.writeOut res).gridG = s.gridG := rfl
@[simp] theorem writeOut_gridB (s : State) (res : List U16) : (s.writeOut res).gridB = s.gridB := rfl
@[simp] theorem writeOut_out (s : State) (res : List U16) : (s.writeOut res).out = res ++ s.out.drop res.length := rfl
@[simp] theorem writeOut_mem (s : State) (res : List U16) : (s.writeOut res).mem = s.mem := rfl
@[simp] theorem writeOut_pending (s : State) (res : List U16) : (s.writeOut res).pending = s.pending := rfl
@[simp] theorem writeOut_results (s : State) (res : List U16) : (s.writeOut res).results = s.results := rfl
@[simp] theorem writeOut_draws (s : State) (res : List U16) : (s.writeOut res).draws = s.draws := rfl

/-! ## setGs -/

@[simp] theorem setGs_params (s : State) (a : Axis) (i : Byte) (e : GridSample) : (s.setGs a i e).params =
    s.params := rfl
@[simp] theorem setGs_sat (s : State) (a : Axis) (i : Byte) (e : GridSample) : (s.setGs a i e).sat = s.sat := rfl
@[simp] theorem setGs_lastOk (s : State) (a : Axis) (i : Byte) (e : GridSample) : (s.setGs a i e).lastOk =
    s.lastOk := rfl
@[simp] theorem setGs_err (s : State) (a : Axis) (i : Byte) (e : GridSample) : (s.setGs a i e).err = s.err := rfl
@[simp] theorem setGs_ecode (s : State) (a : Axis) (i : Byte) (e : GridSample) : (s.setGs a i e).ecode = s.ecode := rfl
@[simp] theorem setGs_nout (s : State) (a : Axis) (i : Byte) (e : GridSample) : (s.setGs a i e).nout = s.nout := rfl
@[simp] theorem setGs_gridR (s : State) (a : Axis) (i : Byte) (e : GridSample) : (s.setGs a i e).gridR = s.gridR := rfl
@[simp] theorem setGs_gridG (s : State) (a : Axis) (i : Byte) (e : GridSample) : (s.setGs a i e).gridG = s.gridG := rfl
@[simp] theorem setGs_gridB (s : State) (a : Axis) (i : Byte) (e : GridSample) : (s.setGs a i e).gridB = s.gridB := rfl
@[simp] theorem setGs_out (s : State) (a : Axis) (i : Byte) (e : GridSample) : (s.setGs a i e).out = s.out := rfl
@[simp] theorem setGs_mem (s : State) (a : Axis) (i : Byte) (e : GridSample) : (s.setGs a i e).mem =
    (s.mem.setHalf (gsAddr a i) e.base).setHalf (gsAddr a i + 2) e.frac := rfl
@[simp] theorem setGs_pending (s : State) (a : Axis) (i : Byte) (e : GridSample) : (s.setGs a i e).pending =
    s.pending := rfl
@[simp] theorem setGs_results (s : State) (a : Axis) (i : Byte) (e : GridSample) : (s.setGs a i e).results =
    s.results := rfl
@[simp] theorem setGs_draws (s : State) (a : Axis) (i : Byte) (e : GridSample) : (s.setGs a i e).draws = s.draws := rfl

/-! ## setDens -/

@[simp] theorem setDens_params (s : State) (j : Nat) (v : U16) : (s.setDens j v).params = s.params := rfl
@[simp] theorem setDens_sat (s : State) (j : Nat) (v : U16) : (s.setDens j v).sat = s.sat := rfl
@[simp] theorem setDens_lastOk (s : State) (j : Nat) (v : U16) : (s.setDens j v).lastOk = s.lastOk := rfl
@[simp] theorem setDens_err (s : State) (j : Nat) (v : U16) : (s.setDens j v).err = s.err := rfl
@[simp] theorem setDens_ecode (s : State) (j : Nat) (v : U16) : (s.setDens j v).ecode = s.ecode := rfl
@[simp] theorem setDens_nout (s : State) (j : Nat) (v : U16) : (s.setDens j v).nout = s.nout := rfl
@[simp] theorem setDens_gridR (s : State) (j : Nat) (v : U16) : (s.setDens j v).gridR = s.gridR := rfl
@[simp] theorem setDens_gridG (s : State) (j : Nat) (v : U16) : (s.setDens j v).gridG = s.gridG := rfl
@[simp] theorem setDens_gridB (s : State) (j : Nat) (v : U16) : (s.setDens j v).gridB = s.gridB := rfl
@[simp] theorem setDens_out (s : State) (j : Nat) (v : U16) : (s.setDens j v).out = s.out := rfl
@[simp] theorem setDens_mem (s : State) (j : Nat) (v : U16) : (s.setDens j v).mem = s.mem.setHalf (densAddr j) v := rfl
@[simp] theorem setDens_pending (s : State) (j : Nat) (v : U16) : (s.setDens j v).pending = s.pending := rfl
@[simp] theorem setDens_results (s : State) (j : Nat) (v : U16) : (s.setDens j v).results = s.results := rfl
@[simp] theorem setDens_draws (s : State) (j : Nat) (v : U16) : (s.setDens j v).draws = s.draws := rfl

/-! ## buildSamples -/

@[simp] theorem buildSamples_params (s : State) : (buildSamples s).params = s.params := rfl
@[simp] theorem buildSamples_sat (s : State) : (buildSamples s).sat = s.sat := rfl
@[simp] theorem buildSamples_lastOk (s : State) : (buildSamples s).lastOk = s.lastOk := rfl
@[simp] theorem buildSamples_err (s : State) : (buildSamples s).err = s.err := rfl
@[simp] theorem buildSamples_ecode (s : State) : (buildSamples s).ecode = s.ecode := rfl
@[simp] theorem buildSamples_nout (s : State) : (buildSamples s).nout = s.nout := rfl
@[simp] theorem buildSamples_gridR (s : State) : (buildSamples s).gridR = s.gridR := rfl
@[simp] theorem buildSamples_gridG (s : State) : (buildSamples s).gridG = s.gridG := rfl
@[simp] theorem buildSamples_gridB (s : State) : (buildSamples s).gridB = s.gridB := rfl
@[simp] theorem buildSamples_out (s : State) : (buildSamples s).out = s.out := rfl
theorem buildSamples_mem (s : State) : (buildSamples s).mem =
    s.mem.replaceRange gsBegin gsEnd (builtArrays (s.gridN .r) (s.gridN .g) (s.gridN .b)) := rfl
@[simp] theorem buildSamples_pending (s : State) : (buildSamples s).pending = s.pending := rfl
@[simp] theorem buildSamples_results (s : State) : (buildSamples s).results = s.results := rfl
@[simp] theorem buildSamples_draws (s : State) : (buildSamples s).draws = s.draws := rfl

/-! ## withFetchWord -/

@[simp] theorem withFetchWord_params (s : State) (nbits w : Nat) : (s.withFetchWord nbits w).params = s.params := rfl
@[simp] theorem withFetchWord_sat (s : State) (nbits w : Nat) : (s.withFetchWord nbits w).sat = s.sat := rfl
@[simp] theorem withFetchWord_lastOk (s : State) (nbits w : Nat) : (s.withFetchWord nbits w).lastOk = s.lastOk := rfl
@[simp] theorem withFetchWord_err (s : State) (nbits w : Nat) : (s.withFetchWord nbits w).err = s.err := rfl
@[simp] theorem withFetchWord_ecode (s : State) (nbits w : Nat) : (s.withFetchWord nbits w).ecode = s.ecode := rfl
@[simp] theorem withFetchWord_nout (s : State) (nbits w : Nat) : (s.withFetchWord nbits w).nout = s.nout := rfl
@[simp] theorem withFetchWord_gridR (s : State) (nbits w : Nat) : (s.withFetchWord nbits w).gridR = s.gridR := rfl
@[simp] theorem withFetchWord_gridG (s : State) (nbits w : Nat) : (s.withFetchWord nbits w).gridG = s.gridG := rfl
@[simp] theorem withFetchWord_gridB (s : State) (nbits w : Nat) : (s.withFetchWord nbits w).gridB = s.gridB := rfl
@[simp] theorem withFetchWord_out (s : State) (nbits w : Nat) : (s.withFetchWord nbits w).out = s.out := rfl
@[simp] theorem withFetchWord_mem (s : State) (nbits w : Nat) : (s.withFetchWord nbits w).mem = s.mem := rfl
@[simp] theorem withFetchWord_pending (s : State) (nbits w : Nat) : (s.withFetchWord nbits w).pending =
    commandWrite s.params (tableWord nbits w) :: s.pending := rfl
@[simp] theorem withFetchWord_results (s : State) (nbits w : Nat) : (s.withFetchWord nbits w).results = s.results := rfl
@[simp] theorem withFetchWord_draws (s : State) (nbits w : Nat) : (s.withFetchWord nbits w).draws = s.draws := rfl

/-! ## withoutStatus -/

@[simp] theorem withoutStatus_params (s : State) : (s.withoutStatus).params = s.params := rfl
@[simp] theorem withoutStatus_sat (s : State) : (s.withoutStatus).sat = s.sat := rfl
@[simp] theorem withoutStatus_lastOk (s : State) : (s.withoutStatus).lastOk = false := rfl
@[simp] theorem withoutStatus_err (s : State) : (s.withoutStatus).err = false := rfl
@[simp] theorem withoutStatus_ecode (s : State) : (s.withoutStatus).ecode = 0 := rfl
@[simp] theorem withoutStatus_nout (s : State) : (s.withoutStatus).nout = s.nout := rfl
@[simp] theorem withoutStatus_gridR (s : State) : (s.withoutStatus).gridR = s.gridR := rfl
@[simp] theorem withoutStatus_gridG (s : State) : (s.withoutStatus).gridG = s.gridG := rfl
@[simp] theorem withoutStatus_gridB (s : State) : (s.withoutStatus).gridB = s.gridB := rfl
@[simp] theorem withoutStatus_out (s : State) : (s.withoutStatus).out = s.out := rfl
@[simp] theorem withoutStatus_mem (s : State) : (s.withoutStatus).mem = s.mem := rfl
@[simp] theorem withoutStatus_pending (s : State) : (s.withoutStatus).pending = s.pending := rfl
@[simp] theorem withoutStatus_results (s : State) : (s.withoutStatus).results = s.results := rfl
@[simp] theorem withoutStatus_draws (s : State) : (s.withoutStatus).draws = s.draws := rfl

end Sys2Proof.Machine
end

