-- ==== Sys2Proof/Laws/Ops.lean ====
section
/-! SUPPORT. What the operations over the RAM entries, the output registers, the configuration and the engine's reads do,
said once. -/

namespace Sys2Proof.Machine

/-! ## Where the entries lie -/

theorem gsAddr_lt (a : Axis) (i : Byte) : gsBegin ≤ gsAddr a i ∧ gsAddr a i + 3 < gsEnd := by
  have := i.isLt
  cases a <;> simp only [gsAddr, gsBegin, gsEnd, Axis.index] <;> omega

theorem gsAddr_mod (a : Axis) (i : Byte) : gsAddr a i % 4 = 0 := by
  cases a <;> simp only [gsAddr, Axis.index] <;> omega

theorem densAddr_mod (j : Nat) : densAddr j % 4 = 0 := by simp only [densAddr]; omega

theorem densAddr_ge (j : Nat) : gsEnd ≤ densAddr j := by simp only [densAddr, gsEnd]; omega

/-- Two GridSample entries at one offset are the same entry. -/
theorem gsAddr_inj {a a' : Axis} {i i' : Byte} (h : gsAddr a i = gsAddr a' i') : a = a' ∧ i = i' := by
  have hi := i.isLt
  have hi' := i'.isLt
  have hn : i.toNat = i'.toNat → i = i' := BitVec.eq_of_toNat_eq
  cases a <;> cases a' <;> simp only [gsAddr, Axis.index] at h <;>
    first
      | exact ⟨rfl, hn (by omega)⟩
      | omega

/-! ## Entries after a write -/

/-- Reading back the GridSample entry just written, and every other entry as before. -/
theorem gs_setGs (s : State) (a a' : Axis) (i i' : Byte) (e : GridSample) :
    (s.setGs a i e).gs a' i' = if a' = a ∧ i' = i then some e else s.gs a' i' := by
  by_cases h : a' = a ∧ i' = i
  · obtain ⟨rfl, rfl⟩ := h
    simp only [State.gs, setGs_mem, and_self, if_true, Memory.half_setHalf_same]
    rw [Memory.half_setHalf_other _ _ (by omega), Memory.half_setHalf_same]
  · have h1 : gsAddr a' i' ≠ gsAddr a i := fun hh => h (gsAddr_inj hh)
    have m1 := gsAddr_mod a i
    have m2 := gsAddr_mod a' i'
    rw [if_neg h]
    simp only [State.gs, setGs_mem]
    rw [Memory.half_setHalf_other _ _ (by omega), Memory.half_setHalf_other _ _ (by omega),
      Memory.half_setHalf_other _ _ (by omega), Memory.half_setHalf_other _ _ (by omega)]

/-- A GridSample write leaves every density. -/
theorem dens_setGs (s : State) (a : Axis) (i : Byte) (e : GridSample) (j : Nat) :
    (s.setGs a i e).dens j = s.dens j := by
  have h1 := gsAddr_lt a i
  have h2 := densAddr_ge j
  simp only [State.dens, setGs_mem]
  rw [Memory.half_setHalf_other _ _ (by omega), Memory.half_setHalf_other _ _ (by omega)]

/-- Reading back the density just written, and every other density as before. -/
theorem dens_setDens (s : State) (j j' : Nat) (v : U16) :
    (s.setDens j v).dens j' = if j' = j then some v else s.dens j' := by
  by_cases h : j' = j
  · subst h; simp [State.dens]
  · rw [if_neg h]
    simp only [State.dens, setDens_mem]
    rw [Memory.half_setHalf_other _ _ (by simp only [densAddr]; omega)]

/-- A density write leaves every GridSample entry. -/
theorem gs_setDens (s : State) (j : Nat) (v : U16) (a : Axis) (i : Byte) : (s.setDens j v).gs a i = s.gs a i := by
  have h1 := gsAddr_lt a i
  have h2 := densAddr_ge j
  simp only [State.gs, setDens_mem]
  rw [Memory.half_setHalf_other _ _ (by omega), Memory.half_setHalf_other _ _ (by omega)]

theorem gs_congr {s t : State} (h : t.mem = s.mem) (a : Axis) (i : Byte) : t.gs a i = s.gs a i := by
  simp only [State.gs, h]

theorem dens_congr {s t : State} (h : t.mem = s.mem) (j : Nat) : t.dens j = s.dens j := by
  simp only [State.dens, h]

/-! ## The arrays after BUILD -/

theorem pickAxis_gridN (s : State) (a : Axis) : pickAxis (s.gridN .r) (s.gridN .g) (s.gridN .b) a = s.gridN a := by
  cases a <;> rfl

theorem byte_buildSamples (s : State) (x : Nat) :
    (buildSamples s).mem.byte x =
      if gsBegin ≤ x ∧ x < gsEnd then Memory.byte (builtArrays (s.gridN .r) (s.gridN .g) (s.gridN .b)) x
      else s.mem.byte x := by
  rw [buildSamples_mem]
  exact Memory.byte_replaceRange _ (by decide) (fun c hc => mem_builtArrays hc) _

theorem byte_buildSamples_entry (s : State) (a : Axis) (i : Byte) {b : Nat} (hb : b < 4) :
    (buildSamples s).mem.byte (gsAddr a i + b) =
      Memory.byte (gsCells (gsAddr a i) (sample (s.gridN a) i)) (gsAddr a i + b) := by
  have := gsAddr_lt a i
  rw [byte_buildSamples, if_pos (by omega), byte_builtArrays _ _ _ _ _ hb, pickAxis_gridN]

/-- After BUILD's writes entry i of GS_a is Sample(n_a, i). -/
theorem gs_buildSamples (s : State) (a : Axis) (i : Byte) :
    (buildSamples s).gs a i = some (sample (s.gridN a) i) := by
  have h0 := byte_buildSamples_entry s a i (b := 0) (by omega)
  have h1 := byte_buildSamples_entry s a i (b := 1) (by omega)
  have h2 := byte_buildSamples_entry s a i (b := 2) (by omega)
  have h3 := byte_buildSamples_entry s a i (b := 3) (by omega)
  simp [gsCells, Memory.byte_cons] at h0 h1 h2 h3
  simp [State.gs, Memory.half, Nat.add_assoc, h0, h1, h2, h3]

/-- BUILD's writes leave every byte outside the three arrays. -/
theorem byte_buildSamples_outside (s : State) {x : Nat} (h : x < gsBegin ∨ gsEnd ≤ x) :
    (buildSamples s).mem.byte x = s.mem.byte x := by
  rw [byte_buildSamples, if_neg (by omega)]

theorem dens_buildSamples (s : State) (j : Nat) : (buildSamples s).dens j = s.dens j := by
  have := densAddr_ge j
  exact Memory.half_congr (byte_buildSamples_outside s (by omega)) (byte_buildSamples_outside s (by omega))

/-! ## The output registers -/

theorem outReg_writeOut (s : State) (res : List U16) (k : Nat) :
    (s.writeOut res).outReg k = if h : k < res.length then res[k] else s.outReg k := by
  simp only [State.outReg, writeOut_out]
  split
  · rename_i h
    simp [List.getD_eq_getElem?_getD, List.getElem?_append_left h, h]
  · rename_i h
    simp only [List.getD_eq_getElem?_getD, List.getElem?_append_right (Nat.le_of_not_lt h), List.getElem?_drop]
    congr 2
    omega

theorem length_writeOut {s : State} {res : List U16} (h : res.length ≤ s.out.length) :
    (s.writeOut res).out.length = s.out.length := by
  simp; omega

/-! ## The configuration -/

theorem gridOK_iff (s : State) :
    s.gridOK = true ↔ ∀ a, 1 ≤ s.gridN a ∧ s.gridN a ≤ s.params.maxGrid := by
  simp only [State.gridOK, State.axisOK, Bool.and_eq_true, decide_eq_true_eq]
  constructor
  · rintro ⟨⟨hr, hg⟩, hb⟩ a; cases a <;> assumption
  · exact fun h => ⟨⟨h .r, h .g⟩, h .b⟩

theorem cfgOK_iff (s : State) :
    s.cfgOK = true ↔
      (∀ a, 1 ≤ s.gridN a ∧ s.gridN a ≤ s.params.maxGrid) ∧ (1 ≤ s.noutN ∧ s.noutN ≤ s.params.maxOut) ∧
        s.noutN * s.gridN .r * s.gridN .g * s.gridN .b ≤ s.params.densDepth := by
  simp only [State.cfgOK, Bool.and_eq_true, decide_eq_true_eq, gridOK_iff]
  tauto

/-! ## The engine's reads -/

theorem gsRead_ok {cmd : Instr} {s : State} {a : Axis} {i : Byte} {e : GridSample} :
    gsRead cmd s a i = .ok e ↔ s.gs a i = some e := by
  unfold gsRead; cases s.gs a i <;> simp

theorem gsRead_error {cmd : Instr} {s : State} {a : Axis} {i : Byte} {f : Fault} :
    gsRead cmd s a i = .error f ↔ s.gs a i = none ∧ f = .uninitRead cmd (.gs a i) := by
  unfold gsRead; cases s.gs a i <;> simp [eq_comm]

theorem densRead_ok {cmd : Instr} {s : State} {j : Nat} {v : U16} :
    densRead cmd s j = .ok v ↔ s.dens j = some v := by
  unfold densRead; cases s.dens j <;> simp

theorem densRead_error {cmd : Instr} {s : State} {j : Nat} {f : Fault} :
    densRead cmd s j = .error f ↔ s.dens j = none ∧ f = .uninitRead cmd (.dens j) := by
  unfold densRead; cases s.dens j <;> simp [eq_comm]

/-- Step 1 succeeds exactly when the three entries are written. -/
theorem fetchSamples_ok {cmd : Instr} {s : State} {r g b : Byte} {p : Samples} :
    fetchSamples cmd s r g b = .ok p ↔
      s.gs .r r = some p.r ∧ s.gs .g g = some p.g ∧ s.gs .b b = some p.b := by
  unfold fetchSamples gsRead
  cases p
  cases s.gs .r r <;> cases s.gs .g g <;> cases s.gs .b b <;> simp

/-- Step 1 stops only at an entry that nothing has written, and names it. -/
theorem fetchSamples_error {cmd : Instr} {s : State} {r g b : Byte} {f : Fault}
    (h : fetchSamples cmd s r g b = .error f) : ∃ a i, s.gs a i = none ∧ f = .uninitRead cmd (.gs a i) := by
  unfold fetchSamples at h
  split at h
  · rename_i hr; injection h with h; subst h; exact ⟨_, _, gsRead_error.1 hr⟩
  · split at h
    · rename_i hg; injection h with h; subst h; exact ⟨_, _, gsRead_error.1 hg⟩
    · split at h
      · rename_i hb; injection h with h; subst h; exact ⟨_, _, gsRead_error.1 hb⟩
      · cases h

/-- The range check of one axis (43_interp.md R76). -/
theorem GridSample.inGrid_iff (e : GridSample) (n : Nat) : e.inGrid n = true ↔ e.lower < n ∧ e.upper < n := by
  unfold GridSample.inGrid; simp

/-- The range check of all six coordinates (43_interp.md R76). -/
theorem Samples.inGrid_iff (p : Samples) (s : State) :
    p.inGrid s = true ↔
      (p.r.lower < s.gridN .r ∧ p.r.upper < s.gridN .r) ∧ (p.g.lower < s.gridN .g ∧ p.g.upper < s.gridN .g) ∧
        (p.b.lower < s.gridN .b ∧ p.b.upper < s.gridN .b) := by
  simp only [Samples.inGrid, Bool.and_eq_true, GridSample.inGrid_iff]; tauto

/-! ## The loop over the channels -/

theorem forChannels_ok {f : Nat → Except Fault U16} {n : Nat} {vs : List U16} :
    forChannels f n = .ok vs ↔ vs.length = n ∧ ∀ k, (h : k < vs.length) → f k = .ok vs[k] := by
  induction n generalizing vs with
  | zero =>
    simp only [forChannels, Except.ok.injEq]
    constructor
    · rintro rfl; simp
    · rintro ⟨h, -⟩; exact (List.length_eq_zero_iff.1 h).symm
  | succ n ih =>
    rw [forChannels]
    constructor
    · intro h
      split at h
      · cases h
      · rename_i us hus
        split at h
        · cases h
        · rename_i v hv
          injection h with h; subst h
          obtain ⟨hl, hk⟩ := ih.1 hus
          refine ⟨by simp [hl], fun k hkl => ?_⟩
          by_cases hk' : k < us.length
          · rw [List.getElem_append_left hk']; exact hk k hk'
          · have : k = n := by simp at hkl; omega
            subst this hl
            simpa using hv
    · rintro ⟨hl, hk⟩
      have hd : vs.dropLast.length = n := by simp [hl]
      have h1 : forChannels f n = .ok vs.dropLast := ih.2 ⟨hd, fun k hkl => by
        rw [List.getElem_dropLast]; exact hk k (by omega)⟩
      have h2 := hk n (by omega)
      rw [h1]; simp only [h2]
      have hne : vs ≠ [] := by intro h; simp [h] at hl
      have hlast : vs[n] = vs.getLast hne := by simp [List.getLast_eq_getElem, hl]
      rw [hlast, List.dropLast_concat_getLast hne]

theorem forChannels_error {f : Nat → Except Fault U16} {n : Nat} {e : Fault} (h : forChannels f n = .error e) :
    ∃ k, k < n ∧ f k = .error e ∧ ∀ k', k' < k → ∃ v, f k' = .ok v := by
  induction n with
  | zero => simp [forChannels] at h
  | succ n ih =>
    rw [forChannels] at h
    split at h
    · rename_i hn
      injection h with h; subst h
      obtain ⟨k, hk, h1, h2⟩ := ih hn
      exact ⟨k, by omega, h1, h2⟩
    · rename_i us hus
      split at h
      · rename_i hv
        injection h with h; subst h
        obtain ⟨hl, hk⟩ := forChannels_ok.1 hus
        exact ⟨n, by omega, hv, fun k' hk' => ⟨_, hk k' (by omega)⟩⟩
      · cases h

/-- The channels all succeed where each does. -/
theorem forChannels_of_forall {f : Nat → Except Fault U16} {n : Nat} (h : ∀ k, k < n → ∃ v, f k = .ok v) :
    ∃ vs, forChannels f n = .ok vs := by
  cases hf : forChannels f n with
  | ok vs => exact ⟨vs, rfl⟩
  | error e =>
    obtain ⟨k, hk, h1, -⟩ := forChannels_error hf
    obtain ⟨v, hv⟩ := h k hk
    rw [hv] at h1; cases h1

/-- All outcomes of computing the channels and writing OUT. -/
theorem outputChannels_cases (f : Nat → Except Fault U16) (s : State) :
    (∃ vs, vs.length = s.noutN ∧ (∀ k, (h : k < vs.length) → f k = .ok vs[k]) ∧
      outputChannels f s = .next (complete (s.writeOut vs))) ∨
    (∃ k e, k < s.noutN ∧ f k = .error e ∧ outputChannels f s = .fault e) := by
  unfold outputChannels
  split
  · rename_i e h
    obtain ⟨k, hk, h1, -⟩ := forChannels_error h
    exact .inr ⟨k, e, hk, h1, rfl⟩
  · rename_i vs h
    obtain ⟨h1, h2⟩ := forChannels_ok.1 h
    exact .inl ⟨vs, h1, h2, rfl⟩

/-! ## The datapath -/

/-- The corners' reading succeeds where the four corners are read, with their densities. -/
theorem readCorners_ok {d : Corner → Except Fault U16} {p q t u : Corner} {f : Int → Int → Int → Int → Coeffs}
    {dp dq dt du : U16} (hp : d p = .ok dp) (hq : d q = .ok dq) (ht : d t = .ok dt) (hu : d u = .ok du) :
    readCorners d p q t u f = .ok (f dp.toNat dq.toNat dt.toNat du.toNat) := by
  simp only [readCorners, hp, hq, ht, hu]

theorem readCorners_error {d : Corner → Except Fault U16} {p q t u : Corner} {f : Int → Int → Int → Int → Coeffs}
    {e : Fault} (h : readCorners d p q t u f = .error e) : ∃ c, d c = .error e := by
  unfold readCorners at h
  split at h
  · rename_i hp; injection h with h; subst h; exact ⟨_, hp⟩
  · split at h
    · rename_i hp; injection h with h; subst h; exact ⟨_, hp⟩
    · split at h
      · rename_i hp; injection h with h; subst h; exact ⟨_, hp⟩
      · split at h
        · rename_i hp; injection h with h; subst h; exact ⟨_, hp⟩
        · cases h

theorem coeffs_error {d : Corner → Except Fault U16} {τ : Tetra} {e : Fault} (h : coeffs d τ = .error e) :
    ∃ c, d c = .error e := by
  cases τ
  case noCase =>
    simp only [coeffs] at h
    split at h
    · rename_i hp; injection h with h; subst h; exact ⟨_, hp⟩
    · cases h
  all_goals (simp only [coeffs] at h; exact readCorners_error h)

/-- The channels stop at the first that reads an unwritten entry. -/
theorem forChannels_first_error {f : Nat → Except Fault U16} {n k : Nat} {e : Fault} (hk : k < n)
    (he : f k = .error e) (h : ∀ k', k' < k → ∃ v, f k' = .ok v) : forChannels f n = .error e := by
  cases hf : forChannels f n with
  | ok vs => obtain ⟨h1, h2⟩ := forChannels_ok.1 hf; have := h2 k (by omega); rw [he] at this; cases this
  | error e' =>
    obtain ⟨k', hk', h1, h2⟩ := forChannels_error hf
    have : k = k' := by
      rcases Nat.lt_trichotomy k k' with hlt | rfl | hlt
      · obtain ⟨v, hv⟩ := h2 k hlt; rw [he] at hv; cases hv
      · rfl
      · obtain ⟨v, hv⟩ := h k' hlt; rw [h1] at hv; cases hv
    subst this; rw [he] at h1; injection h1 with h1; rw [h1]

end Sys2Proof.Machine
end

