-- ==== Sys2Proof/Laws/Commands.lean ====
section
/-! SUPPORT. What a command can do, said once: every outcome of exec, by command. -/

namespace Sys2Proof.Machine

@[simp] theorem exec_nop (s : State) : exec .nop s = .next (complete s) := rfl

theorem exec_build (s : State) :
    exec .build s =
      if s.gridOK then .next (complete (buildSamples s)) else .next (raiseError .badConfig s) := rfl

theorem exec_lookup (x y z : Byte) (s : State) : exec (.lookup x y z) s = execLookup x y z s := rfl

theorem exec_interp (r g b : Byte) (s : State) : exec (.interp r g b) s = execInterp r g b s := rfl

/-- An entry of the RAMs holds no value. -/
def State.Unwritten (s : State) : RamEntry → Prop
  | .gs a i => s.gs a i = none
  | .dens j => s.dens j = none

theorem density_ok {cmd : Instr} {s : State} {x y z k : Nat} {v : U16} :
    density cmd s x y z k = .ok v ↔ s.dens (s.densIndex x y z k) = some v := densRead_ok

theorem density_error {cmd : Instr} {s : State} {x y z k : Nat} {e : Fault} (h : density cmd s x y z k = .error e) :
    ∃ en, s.Unwritten en ∧ e = .uninitRead cmd en :=
  ⟨.dens _, densRead_error.1 h⟩

theorem interpChannel_error {cmd : Instr} {s : State} {p : Samples} {k : Nat} {e : Fault}
    (h : interpChannel cmd s p k = .error e) : ∃ en, s.Unwritten en ∧ e = .uninitRead cmd en := by
  unfold interpChannel at h
  split at h
  · rename_i hc
    injection h with h; subst h
    obtain ⟨c, hc⟩ := coeffs_error hc
    exact density_error hc
  · cases h

/-- A command that completes: what it may have written. -/
inductive Completed (i : Instr) (s : State) : State → Prop where
  | nop (h : i = .nop) : Completed i s (complete s)
  | build (h : i = .build) (hg : s.gridOK = true) : Completed i s (complete (buildSamples s))
  | out (vs : List U16) (hl : vs.length = s.noutN) (hc : s.cfgOK = true)
      (hi : (∃ x y z, i = .lookup x y z) ∨ ∃ r g b, i = .interp r g b) : Completed i s (complete (s.writeOut vs))

/-- Every outcome of a command: it completes, it raises an error, or it stops at an entry nothing has written. -/
theorem exec_cases (i : Instr) (s : State) :
    (∃ t, exec i s = .next t ∧ Completed i s t) ∨
    (∃ c, exec i s = .next (raiseError c s)) ∨
    (∃ en, s.Unwritten en ∧ exec i s = .fault (.uninitRead i en)) := by
  cases i with
  | nop => exact .inl ⟨_, rfl, .nop rfl⟩
  | build =>
    rw [exec_build]
    split
    · rename_i h; exact .inl ⟨_, rfl, .build rfl h⟩
    · exact .inr (.inl ⟨_, rfl⟩)
  | lookup x y z =>
    rw [exec_lookup, execLookup]
    split
    · rename_i hc
      split
      · rcases outputChannels_cases (density (.lookup x y z) s x.toNat y.toNat z.toNat) s with
          ⟨vs, hl, -, h⟩ | ⟨k, e, -, he, h⟩
        · exact .inl ⟨_, h, .out vs hl hc (.inl ⟨x, y, z, rfl⟩)⟩
        · obtain ⟨en, h1, rfl⟩ := density_error he
          exact .inr (.inr ⟨en, h1, h⟩)
      · exact .inr (.inl ⟨_, rfl⟩)
    · exact .inr (.inl ⟨_, rfl⟩)
  | interp r g b =>
    rw [exec_interp, execInterp]
    split
    · rename_i hc
      split
      · rename_i f hf
        obtain ⟨a, j, h1, rfl⟩ := fetchSamples_error hf
        exact .inr (.inr ⟨.gs a j, h1, rfl⟩)
      · rename_i p _
        split
        · rcases outputChannels_cases (interpChannel (.interp r g b) s p) s with ⟨vs, hl, -, h⟩ | ⟨k, e, -, he, h⟩
          · exact .inl ⟨_, h, .out vs hl hc (.inr ⟨r, g, b, rfl⟩)⟩
          · obtain ⟨en, h1, rfl⟩ := interpChannel_error he
            exact .inr (.inr ⟨en, h1, h⟩)
        · exact .inr (.inl ⟨_, rfl⟩)
    · exact .inr (.inl ⟨_, rfl⟩)

/-- A next state of a command is one of a completed command or of a raised error. -/
theorem exec_next {i : Instr} {s t : State} (h : exec i s = .next t) :
    Completed i s t ∨ ∃ c, t = raiseError c s := by
  rcases exec_cases i s with ⟨u, hu, hc⟩ | ⟨c, hc⟩ | ⟨en, -, hf⟩
  · rw [h] at hu; injection hu with hu; subst hu; exact .inl hc
  · rw [h] at hc; injection hc with hc; exact .inr ⟨c, hc⟩
  · rw [h] at hf; cases hf

/-- LOOKUP where its vertex is in the grid and its densities are written. -/
theorem execLookup_next {s : State} {x y z : Byte} {d : Nat → U16} (hc : s.cfgOK = true)
    (hv : s.vertexInGrid x.toNat y.toNat z.toNat = true)
    (hd : ∀ k, k < s.noutN → s.dens (s.densIndex x.toNat y.toNat z.toNat k) = some (d k)) :
    exec (.lookup x y z) s = .next (complete (s.writeOut ((List.range s.noutN).map d))) := by
  have h : forChannels (density (.lookup x y z) s x.toNat y.toNat z.toNat) s.noutN =
      .ok ((List.range s.noutN).map d) := by
    refine forChannels_ok.2 ⟨by simp, fun k hk => density_ok.2 ?_⟩
    simp only [List.length_map, List.length_range] at hk
    simpa using hd k hk
  rw [exec_lookup, execLookup, if_pos hc, if_pos hv, outputChannels, h]

/-- The value of a channel whose coefficients are known. -/
theorem interpChannel_ok {cmd : Instr} {s : State} {p : Samples} {k : Nat} {c : Coeffs}
    (h : coeffs (cornerDensity cmd s p k) (classify p.r.frac.toNat p.g.frac.toNat p.b.frac.toNat) = .ok c) :
    interpChannel cmd s p k =
      .ok (convert s.sat (combine s.params.arith c p.r.frac.toNat p.g.frac.toNat p.b.frac.toNat)) := by
  simp only [interpChannel, h]

/-- INTERP where its entries are written, its cube is in the grid and every channel has a value. -/
theorem execInterp_next {s : State} {r g b : Byte} {p : Samples} {v : Nat → U16} (hc : s.cfgOK = true)
    (hr : s.gs .r r = some p.r) (hg : s.gs .g g = some p.g) (hb : s.gs .b b = some p.b) (hp : p.inGrid s = true)
    (hv : ∀ k, k < s.noutN → interpChannel (.interp r g b) s p k = .ok (v k)) :
    exec (.interp r g b) s = .next (complete (s.writeOut ((List.range s.noutN).map v))) := by
  have h : forChannels (interpChannel (.interp r g b) s p) s.noutN = .ok ((List.range s.noutN).map v) := by
    refine forChannels_ok.2 ⟨by simp, fun k hk => ?_⟩
    simp only [List.length_map, List.length_range] at hk
    simpa using hv k hk
  have hf : fetchSamples (.interp r g b) s r g b = .ok p := fetchSamples_ok.2 ⟨hr, hg, hb⟩
  rw [exec_interp, execInterp, if_pos hc]
  simp only [hf]
  rw [if_pos hp, outputChannels, h]

/-- What stands in OUT after a completed output command. -/
theorem outReg_map_range (s : State) (v : Nat → U16) (k : Nat) :
    (s.writeOut ((List.range s.noutN).map v)).outReg k = if k < s.noutN then v k else s.outReg k := by
  rw [outReg_writeOut]
  by_cases h : k < s.noutN <;> simp [h]

/-- The corners are read in order, and the first unwritten one stops the read. -/
theorem readCorners_first_error {d : Corner → Except Fault U16} {p q t u : Corner} {f : Int → Int → Int → Int → Coeffs}
    {before after : List Corner} {c : Corner} {e : Fault}
    (hp : [p, q, t, u] = before ++ c :: after) (hb : ∀ c' ∈ before, ∃ v, d c' = .ok v) (he : d c = .error e) :
    readCorners d p q t u f = .error e := by
  unfold readCorners
  match before, hp, hb with
  | [], hp, _ => simp at hp; rw [hp.1, he]
  | [b1], hp, hb => simp at hp hb; obtain ⟨v, hv⟩ := hb; rw [hp.1, hv]; simp only; rw [hp.2.1, he]
  | [b1, b2], hp, hb =>
    simp at hp hb; obtain ⟨⟨v, hv⟩, ⟨w, hw⟩⟩ := hb
    rw [hp.1, hv]; simp only; rw [hp.2.1, hw]; simp only; rw [hp.2.2.1, he]
  | [b1, b2, b3], hp, hb =>
    simp at hp hb; obtain ⟨⟨v, hv⟩, ⟨w, hw⟩, ⟨y, hy⟩⟩ := hb
    rw [hp.1, hv]; simp only; rw [hp.2.1, hw]; simp only; rw [hp.2.2.1, hy]; simp only; rw [hp.2.2.2.1, he]
  | b1 :: b2 :: b3 :: b4 :: r, hp, hb => simp at hp

end Sys2Proof.Machine
end

