-- ==== Sys2Proof/Laws/Bus.lean ====
section
/-! SUPPORT. The bus: which accesses are admitted, where each offset leads, and every outcome of a step. -/

namespace Sys2Proof.Machine

/-- An admitted access: its offset. -/
theorem accessOffset_ok {p : Params} {addr width off : Nat} :
    accessOffset p addr width = .ok off ↔
      addr = p.baseAddr + off ∧ width = 4 ∧ off % 4 = 0 ∧ off < apertureSize := by
  unfold accessOffset
  split
  · rename_i h
    constructor
    · intro h; cases h
    · rintro ⟨rfl, -, -, h'⟩; omega
  · rename_i h
    split
    · rename_i h'
      rw [Except.ok.injEq]
      constructor
      · rintro rfl; refine ⟨by omega, h'.1, h'.2, by omega⟩
      · rintro ⟨rfl, -, -, -⟩; omega
    · rename_i h'
      constructor
      · intro h; cases h
      · rintro ⟨rfl, rfl, h1, h2⟩
        exact absurd ⟨rfl, by rwa [Nat.add_sub_cancel_left]⟩ h'

theorem accessOffset_base {p : Params} {off : Nat} (h4 : off % 4 = 0) (hlt : off < apertureSize) :
    accessOffset p (p.baseAddr + off) 4 = .ok off := accessOffset_ok.2 ⟨rfl, rfl, h4, hlt⟩

@[simp] theorem slotAt_cmd (p : Params) : slotAt p 0x10 = .cmd := rfl

theorem step_nil {s : State} (h : s.pending = []) : step s = .next s := by
  unfold step; rw [h]

theorem step_cons {s : State} {e : BusEvent} {rest : List BusEvent} (h : s.pending = e :: rest) :
    step s = perform e { s with pending := rest } := by
  unfold step; rw [h]

theorem slotAt_register {p : Params} {off : Nat} (h : off < 0x100) : slotAt p off = registerAt off := by
  rw [slotAt, if_pos h]

theorem slotAt_outWindow {p : Params} {off : Nat} (h1 : 0x100 ≤ off) (h2 : off < 0x1000) :
    slotAt p off = if (off - 0x100) / 4 < p.maxOut then .out ((off - 0x100) / 4) else .reserved := by
  rw [slotAt, if_neg (by omega), if_pos h2]

theorem slotAt_gsWindow {p : Params} {off : Nat} (h1 : 0x1000 ≤ off) (h2 : off < 0x1C00) :
    slotAt p off = .gs (Axis.ofIndex ((off - 0x1000) / 0x400)) (BitVec.ofNat 8 ((off - 0x1000) / 4)) := by
  rw [slotAt, if_neg (by omega), if_neg (by omega), if_pos h2]

theorem slotAt_gap {p : Params} {off : Nat} (h1 : 0x1C00 ≤ off) (h2 : off < 0x40000) : slotAt p off = .reserved := by
  rw [slotAt, if_neg (by omega), if_neg (by omega), if_neg (by omega), if_pos h2]

theorem slotAt_densWindow {p : Params} {off : Nat} (h : 0x40000 ≤ off) :
    slotAt p off = if (off - 0x40000) / 4 < p.densDepth then .dens ((off - 0x40000) / 4) else .reserved := by
  rw [slotAt, if_neg (by omega), if_neg (by omega), if_neg (by omega), if_neg (by omega)]

/-- The GridSample entry at an offset of the three arrays. -/
theorem slotAt_gs (p : Params) (a : Axis) (i : Byte) : slotAt p (gsAddr a i) = .gs a i := by
  have hi := i.isLt
  have h := gsAddr_lt a i
  simp only [gsBegin, gsEnd] at h
  rw [slotAt_gsWindow (by omega) (by omega)]
  have h1 : (gsAddr a i - 0x1000) / 0x400 = a.index := by
    simp only [gsAddr]; omega
  have h2 : BitVec.ofNat 8 ((gsAddr a i - 0x1000) / 4) = i := by
    apply BitVec.eq_of_toNat_eq
    rw [BitVec.toNat_ofNat]
    simp only [gsAddr]; omega
  rw [h1, h2]
  cases a <;> rfl

/-- The density at an offset of the density window. -/
theorem slotAt_dens {p : Params} {j : Nat} (hj : j < p.densDepth) : slotAt p (densAddr j) = .dens j := by
  have h : (densAddr j - 0x40000) / 4 = j := by simp only [densAddr]; omega
  rw [slotAt_densWindow (by simp [densAddr]), h, if_pos hj]

/-- The output register at an offset of the OUT window. -/
theorem slotAt_out {p : Params} (hp : p.Legal) {k : Nat} (hk : k < p.maxOut) : slotAt p (0x100 + 4 * k) = .out k := by
  obtain ⟨⟨-, h64⟩, -⟩ := hp
  have h : (0x100 + 4 * k - 0x100) / 4 = k := by omega
  rw [slotAt_outWindow (by omega) (by omega), h, if_pos hk]

/-- Where a slot other than a reserved one lies. -/
def Slot.offset : Slot → Nat
  | .id => 0x00
  | .caps => 0x04
  | .ctrl => 0x08
  | .status => 0x0C
  | .cmd => 0x10
  | .nout => 0x14
  | .gridn .r => 0x18
  | .gridn .g => 0x1C
  | .gridn .b => 0x20
  | .depth => 0x24
  | .out k => 0x100 + 4 * k
  | .gs a i => gsAddr a i
  | .dens j => densAddr j
  | .reserved => 0

/-- The parameters that give a slot its existence. -/
def Slot.Exists (p : Params) : Slot → Prop
  | .out k => k < p.maxOut
  | .dens j => j < p.densDepth
  | _ => True

theorem registerAt_offset (off : Nat) : registerAt off = .reserved ∨
    (off = (registerAt off).offset ∧ ∀ p, (registerAt off).Exists p) := by
  unfold registerAt
  split <;> first | exact .inl rfl | exact .inr ⟨rfl, fun _ => trivial⟩

/-- A slot stands at one offset only, and what it names exists. -/
theorem slotAt_offset {p : Params} {off : Nat} (h4 : off % 4 = 0) :
    slotAt p off = .reserved ∨ (off = (slotAt p off).offset ∧ (slotAt p off).Exists p) := by
  by_cases h1 : off < 0x100
  · rw [slotAt_register h1]
    rcases registerAt_offset off with h | ⟨h, h'⟩
    · exact .inl h
    · exact .inr ⟨h, h' p⟩
  by_cases h2 : off < 0x1000
  · rw [slotAt_outWindow (by omega) h2]
    split
    · rename_i h; exact .inr ⟨by simp only [Slot.offset]; omega, h⟩
    · exact .inl rfl
  by_cases h3 : off < 0x1C00
  · rw [slotAt_gsWindow (by omega) h3]
    refine .inr ⟨?_, trivial⟩
    have hq : (off - 0x1000) / 0x400 = 0 ∨ (off - 0x1000) / 0x400 = 1 ∨ (off - 0x1000) / 0x400 = 2 := by omega
    simp only [Slot.offset, gsAddr, BitVec.toNat_ofNat]
    rcases hq with hq | hq | hq <;> rw [hq] <;> simp only [Axis.ofIndex, Axis.index] <;> omega
  by_cases h4' : off < 0x40000
  · exact .inl (slotAt_gap (by omega) h4')
  · rw [slotAt_densWindow (by omega)]
    split
    · rename_i h; exact .inr ⟨by simp only [Slot.offset, densAddr]; omega, h⟩
    · exact .inl rfl

/-- Every outcome of a register write: what changes. -/
theorem registerWrite_pending (s : State) (v : Word) (sl : Slot) :
    (registerWrite s v sl).pending = s.pending := by
  unfold registerWrite; split <;> simp
  split <;> simp

theorem hostRead_eq (s : State) (sl : Slot) :
    ∃ v n, hostRead s sl = { s with results := v :: s.results, draws := n } := by
  unfold hostRead; split
  · exact ⟨_, s.draws, rfl⟩
  · exact ⟨_, _, rfl⟩

/-- Every outcome of a step. -/
theorem step_cases (s : State) :
    (s.pending = [] ∧ step s = .next s) ∨
    ∃ e rest, s.pending = e :: rest ∧
      ((e = .reset ∧ step s = .next (resetBlock { s with pending := rest })) ∨
       (∃ r, step s = .refused r) ∨
       (∃ sl, step s = .next (hostRead { s with pending := rest } sl)) ∨
       (∃ off v, off % 4 = 0 ∧ off < apertureSize ∧ e = .write (s.params.baseAddr + off) 4 v ∧
          slotAt s.params off ≠ .cmd ∧
          step s = .next (registerWrite { s with pending := rest } v (slotAt s.params off))) ∨
       (∃ v, e = .write (s.params.baseAddr + 0x10) 4 v ∧ step s = execute v { s with pending := rest })) := by
  cases hp : s.pending with
  | nil => exact .inl ⟨rfl, step_nil hp⟩
  | cons e rest =>
    refine .inr ⟨e, rest, rfl, ?_⟩
    rw [step_cons hp]
    cases e with
    | reset => exact .inl ⟨rfl, rfl⟩
    | read addr width =>
      simp only [perform]
      split
      · exact .inr (.inl ⟨_, rfl⟩)
      · exact .inr (.inr (.inl ⟨_, rfl⟩))
    | write addr width v =>
      simp only [perform]
      split
      · exact .inr (.inl ⟨_, rfl⟩)
      · rename_i off ho
        obtain ⟨rfl, rfl, h4, hlt⟩ := accessOffset_ok.1 ho
        simp only [hostWrite]
        split
        · rename_i hs
          rcases slotAt_offset (p := s.params) h4 with h | ⟨h, -⟩ <;> rw [hs] at h
          · cases h
          simp only [Slot.offset] at h
          subst h
          exact .inr (.inr (.inr (.inr ⟨v, rfl, rfl⟩)))
        · rename_i hs
          exact .inr (.inr (.inr (.inl ⟨off, v, h4, hlt, rfl, hs, rfl⟩)))

end Sys2Proof.Machine
end

