-- ==== Sys2Proof/Laws/Encoding.lean ====
section
/-! SUPPORT. The fields of a command word and the word of its fields. -/

namespace Sys2Proof

/-- The fields of a packed word are what was packed. -/
theorem fields_packWord (op : BitVec 4) (a b c : Byte) :
    fieldOP (packWord op a b c) = op ∧ fieldRSV (packWord op a b c) = 0 ∧
    fieldA (packWord op a b c) = a ∧ fieldB (packWord op a b c) = b ∧ fieldC (packWord op a b c) = c := by
  refine ⟨?_, ?_, ?_, ?_, ?_⟩ <;> apply BitVec.eq_of_getLsbD_eq <;> intro i hi <;>
    simp only [fieldOP, fieldRSV, fieldA, fieldB, fieldC, packWord, BitVec.getLsbD_extractLsb', BitVec.getLsbD_append] <;>
    interval_cases i <;> simp

/-- A word with RSV = 0 is what its fields pack to. -/
theorem packWord_fields (w : Word) (h : fieldRSV w = 0) : packWord (fieldOP w) (fieldA w) (fieldB w) (fieldC w) = w := by
  apply BitVec.eq_of_getLsbD_eq
  intro i hi
  have hr : ∀ j, j < 4 → w.getLsbD (24 + j) = false := by
    intro j hj
    have := congrArg (fun x : BitVec 4 => x.getLsbD j) h
    simpa [fieldRSV, BitVec.getLsbD_extractLsb', hj] using this
  simp only [packWord, fieldOP, fieldA, fieldB, fieldC, BitVec.getLsbD_append, BitVec.getLsbD_extractLsb']
  have h0 := hr 0; have h1 := hr 1; have h2 := hr 2; have h3 := hr 3
  interval_cases i <;> simp_all

/-- The operands of a word whose low 24 bits are 0. -/
theorem operands_zero (w : Word) (h : w.extractLsb' 0 24 = 0) : fieldA w = 0 ∧ fieldB w = 0 ∧ fieldC w = 0 := by
  have hr : ∀ j, j < 24 → w.getLsbD j = false := by
    intro j hj
    have := congrArg (fun x : BitVec 24 => x.getLsbD j) h
    simpa [BitVec.getLsbD_extractLsb', hj] using this
  refine ⟨?_, ?_, ?_⟩ <;> apply BitVec.eq_of_getLsbD_eq <;> intro i hi <;>
    simp only [fieldA, fieldB, fieldC, BitVec.getLsbD_extractLsb'] <;> simp [hi] <;> exact hr _ (by omega)

end Sys2Proof
end

