-- ==== Sys2Proof/Laws/PerInstr.lean ====
section
/-! SUPPORT. Statements made per command. -/

/-- The word of a command belongs to its row of the opcode map (30_encoding.md R57), and to no other. -/
def Sys2Proof.Laws.EncodeRow.Statement (i : Sys2Proof.Instr) : Prop :=
  (Sys2Proof.opcodeMap.filter (fun row => row.accepts (Sys2Proof.encode i))).map (·.mnemonic) =
    [match i with
     | .nop => "NOP"
     | .interp _ _ _ => "INTERP"
     | .lookup _ _ _ => "LOOKUP"
     | .build => "BUILD"]

namespace Sys2Proof.Laws

/-- The top byte of a packed word: OP above RSV = 0. -/
theorem packWord_and_top (op : BitVec 4) (a b c : Byte) :
    packWord op a b c &&& 0xFF000000 = packWord op 0 0 0 := by
  apply BitVec.eq_of_getLsbD_eq
  intro i hi
  simp only [packWord, BitVec.getLsbD_and, BitVec.getLsbD_append]
  interval_cases i <;> simp

end Sys2Proof.Laws

theorem Sys2Proof.Laws.EncodeRow.nop : Sys2Proof.Laws.EncodeRow.Statement .nop := by
  unfold Sys2Proof.Laws.EncodeRow.Statement; decide

theorem Sys2Proof.Laws.EncodeRow.build : Sys2Proof.Laws.EncodeRow.Statement .build := by
  unfold Sys2Proof.Laws.EncodeRow.Statement; decide

theorem Sys2Proof.Laws.EncodeRow.interp (r g b : Sys2Proof.Byte) :
    Sys2Proof.Laws.EncodeRow.Statement (.interp r g b) := by
  have h : Sys2Proof.packWord 1#4 r g b &&& 0xFF000000#32 = 0x10000000#32 :=
    Sys2Proof.Laws.packWord_and_top 1#4 r g b
  have hne : Sys2Proof.packWord 1#4 r g b ≠ 0#32 := fun h' => by rw [h'] at h; revert h; decide
  have hne' : Sys2Proof.packWord 1#4 r g b ≠ 805306368#32 := fun h' => by rw [h'] at h; revert h; decide
  have hm : ∀ w : Sys2Proof.Word, w &&& 0xFFFFFFFF = w := fun w => BitVec.and_allOnes
  simp only [Sys2Proof.Laws.EncodeRow.Statement, Sys2Proof.opcodeMap, Sys2Proof.encode, Sys2Proof.OpcodeRow.accepts,
    List.filter_cons, hm]
  simp [hne, hne', h]

theorem Sys2Proof.Laws.EncodeRow.lookup (x y z : Sys2Proof.Byte) :
    Sys2Proof.Laws.EncodeRow.Statement (.lookup x y z) := by
  have h : Sys2Proof.packWord 2#4 x y z &&& 0xFF000000#32 = 0x20000000#32 :=
    Sys2Proof.Laws.packWord_and_top 2#4 x y z
  have hne : Sys2Proof.packWord 2#4 x y z ≠ 0#32 := fun h' => by rw [h'] at h; revert h; decide
  have hne' : Sys2Proof.packWord 2#4 x y z ≠ 805306368#32 := fun h' => by rw [h'] at h; revert h; decide
  have hm : ∀ w : Sys2Proof.Word, w &&& 0xFFFFFFFF = w := fun w => BitVec.and_allOnes
  simp only [Sys2Proof.Laws.EncodeRow.Statement, Sys2Proof.opcodeMap, Sys2Proof.encode, Sys2Proof.OpcodeRow.accepts,
    List.filter_cons, hm]
  simp [hne, hne', h]
end

