-- ==== Sys2Proof/Laws/Safety.lean ====
section
/-! SUPPORT. What the operations do to the parts of the invariant. -/

namespace Sys2Proof.Machine

/-- Raising an error leaves a STATUS the errors can make. -/
theorem statusOK_raiseError {s : State} (h : s.StatusOK) (c : ErrorCode) : (raiseError c s).StatusOK := by
  unfold State.StatusOK at *
  simp only [raiseError_err, raiseError_ecode, if_true]
  split at h
  · rename_i he; simpa [he] using h
  · rename_i he; rw [if_neg he]; cases c <;> decide

/-- A u16 write makes its two bytes written. -/
theorem Memory.isSome_byte_setHalf {m : Memory} {a x : Nat} {v : U16} :
    ((m.setHalf a v).byte x).isSome = (decide (x = a ∨ x = a + 1) || (m.byte x).isSome) := by
  rw [Memory.byte_setHalf]
  by_cases h1 : x = a
  · simp [h1]
  · by_cases h2 : x = a + 1 <;> simp [h1, h2]

/-- A write of a GridSample entry leaves the entries whole. -/
theorem entriesWhole_setGs {s : State} (h : s.EntriesWhole) (a i e) : (s.setGs a i e).EntriesWhole := by
  intro x hx
  simp only [setGs_mem, Memory.isSome_byte_setHalf] at hx ⊢
  by_cases hin : x = gsAddr a i ∨ x = gsAddr a i + 1 ∨ x = gsAddr a i + 2 ∨ x = gsAddr a i + 3
  · refine ⟨.gs a i, trivial, by simpa [RamEntry.bytes] using hin, ?_⟩
    intro y hy; simp only [RamEntry.bytes, List.mem_cons, List.not_mem_nil, or_false] at hy
    simp; omega
  · have : (s.mem.byte x).isSome := by
      simp only [Bool.or_eq_true, decide_eq_true_eq] at hx
      rcases hx with h | h | h
      · omega
      · omega
      · exact h
    obtain ⟨en, h1, h2, h3⟩ := h x this
    exact ⟨en, h1, h2, fun y hy => by simp [h3 y hy]⟩

/-- A write of a density leaves the entries whole. -/
theorem entriesWhole_setDens {s : State} (h : s.EntriesWhole) {j : Nat} (hj : j < s.params.densDepth) (v : U16) :
    (s.setDens j v).EntriesWhole := by
  intro x hx
  simp only [setDens_mem, Memory.isSome_byte_setHalf] at hx ⊢
  by_cases hin : x = densAddr j ∨ x = densAddr j + 1
  · refine ⟨.dens j, hj, by simpa [RamEntry.bytes] using hin, ?_⟩
    intro y hy; simp only [RamEntry.bytes, List.mem_cons, List.not_mem_nil, or_false] at hy
    simp; omega
  · have : (s.mem.byte x).isSome := by
      simp only [Bool.or_eq_true, decide_eq_true_eq] at hx
      rcases hx with h | h
      · omega
      · exact h
    obtain ⟨en, h1, h2, h3⟩ := h x this
    exact ⟨en, h1, h2, fun y hy => by simp [h3 y hy]⟩

/-- EntriesWhole looks at the memory and the parameters only. -/
theorem entriesWhole_congr {s t : State} (hm : t.mem = s.mem) (hp : t.params = s.params) (h : s.EntriesWhole) :
    t.EntriesWhole := by
  unfold State.EntriesWhole at *; rw [hm, hp]; exact h

/-- BUILD writes every byte of the arrays. -/
theorem isSome_byte_buildSamples (s : State) (a : Axis) (i : Byte) {b : Nat} (hb : b < 4) :
    ((buildSamples s).mem.byte (gsAddr a i + b)).isSome := by
  rw [byte_buildSamples_entry s a i hb]
  simp only [gsCells, Memory.byte_cons]
  have : b = 0 ∨ b = 1 ∨ b = 2 ∨ b = 3 := by omega
  rcases this with rfl | rfl | rfl | rfl <;> simp

/-- Every offset of the GridSample arrays is a byte of an entry. -/
theorem exists_gsAddr {x : Nat} (h : gsBegin ≤ x ∧ x < gsEnd) : ∃ a i b, b < 4 ∧ x = gsAddr a i + b := by
  simp only [gsBegin, gsEnd] at h
  have hi : ∀ n, n < 256 → (BitVec.ofNat 8 n).toNat = n := by intro n hn; simp; omega
  by_cases h1 : x < 0x1400
  · exact ⟨.r, BitVec.ofNat 8 ((x - 0x1000)/4), x % 4, by omega, by
      simp only [gsAddr, Axis.index]; rw [hi _ (by omega)]; omega⟩
  by_cases h2 : x < 0x1800
  · exact ⟨.g, BitVec.ofNat 8 ((x - 0x1400)/4), x % 4, by omega, by
      simp only [gsAddr, Axis.index]; rw [hi _ (by omega)]; omega⟩
  · exact ⟨.b, BitVec.ofNat 8 ((x - 0x1800)/4), x % 4, by omega, by
      simp only [gsAddr, Axis.index]; rw [hi _ (by omega)]; omega⟩

/-- BUILD leaves the entries whole. -/
theorem entriesWhole_buildSamples {s : State} (h : s.EntriesWhole) : (buildSamples s).EntriesWhole := by
  intro x hx
  by_cases hin : gsBegin ≤ x ∧ x < gsEnd
  · obtain ⟨a, i, b, hb, rfl⟩ := exists_gsAddr hin
    refine ⟨.gs a i, trivial, ?_, ?_⟩
    · simp only [RamEntry.bytes, List.mem_cons, List.not_mem_nil, or_false]; omega
    · intro y hy
      simp only [RamEntry.bytes, List.mem_cons, List.not_mem_nil, or_false] at hy
      rcases hy with rfl | rfl | rfl | rfl
      · exact isSome_byte_buildSamples s a i (b := 0) (by omega)
      · exact isSome_byte_buildSamples s a i (by omega)
      · exact isSome_byte_buildSamples s a i (by omega)
      · exact isSome_byte_buildSamples s a i (by omega)
  · have ho : (buildSamples s).mem.byte x = s.mem.byte x := byte_buildSamples_outside s (by omega)
    rw [ho] at hx
    obtain ⟨en, h1, h2, h3⟩ := h x hx
    refine ⟨en, h1, h2, fun y hy => ?_⟩
    have hy' : y < gsBegin ∨ gsEnd ≤ y := by
      cases en with
      | gs a i =>
        have := gsAddr_lt a i
        simp only [RamEntry.bytes, List.mem_cons, List.not_mem_nil, or_false] at h2
        omega
      | dens j =>
        have := densAddr_ge j
        simp only [RamEntry.bytes, List.mem_cons, List.not_mem_nil, or_false] at hy
        omega
    rw [byte_buildSamples_outside s hy']; exact h3 y hy

end Sys2Proof.Machine
end

