-- ==== Sys2Proof/Tests/Slice0.lean ====
section
/-! SUPPORT. Tests: expected values from 95_test_vectors.md and the worked examples of the rules; and the witnesses, one
for each statement that has hypotheses. -/

namespace Sys2Proof.Tests

open Sys2Proof.Machine Sys2Proof.Spec

/-! ## Small states -/

/-- A configuration with NOUT = k and n = (nr, ng, nb), all else as after reset. -/
def configured (k nr ng nb : Nat) : State :=
  { State.reset with
    nout := BitVec.ofNat 8 k, gridR := BitVec.ofNat 9 nr, gridG := BitVec.ofNat 9 ng, gridB := BitVec.ofNat 9 nb }

/-- DENS[0 ..] written. -/
def withDens (s : State) (vs : List Nat) : State :=
  vs.zipIdx.foldl (fun s c => s.setDens c.2 (BitVec.ofNat 16 c.1)) s

/-- GS_R[i], GS_G[j], GS_B[k] written. -/
def withSamples (s : State) (i : Byte) (er : GridSample) (j : Byte) (eg : GridSample) (k : Byte) (eb : GridSample) :
    State :=
  ((s.setGs .r i er).setGs .g j eg).setGs .b k eb

/-- The state of W1. -/
def stateW1 : State :=
  withSamples (withDens (configured 1 2 1 1) [0, 1]) 5 ⟨0, 32767⟩ 0 ⟨0, 0⟩ 0 ⟨0, 0⟩

/-- Cube C of W3 with the fractions of `interp 1, 1, 1`. -/
def cubeC (fr fg fb : U16) : State :=
  withSamples (withDens (configured 1 2 2 2) [1000, 2000, 3000, 4000, 5000, 7000, 9000, 12000])
    1 ⟨0, fr⟩ 1 ⟨0, fg⟩ 1 ⟨0, fb⟩

/-- The samples of `interp 1, 1, 1` on cube C. -/
def samplesC (fr fg fb : U16) : Samples := ⟨⟨0, fr⟩, ⟨0, fg⟩, ⟨0, fb⟩⟩

/-- The outcome is a next state with the property. -/
def endsIn (o : Host.Outcome State Fault Refusal) (q : State → Bool) : Bool :=
  match o with
  | .next t => q t
  | .fault _ => false
  | .refused _ => false

/-- An outcome that ends in a next state is that state. -/
theorem exists_of_endsIn {o : Host.Outcome State Fault Refusal} {q : State → Bool} (h : endsIn o q = true) :
    ∃ t, o = .next t ∧ q t = true := by
  cases o with
  | next t => exact ⟨t, rfl, h⟩
  | fault f => cases h
  | refused r => cases h

/-! ## Well-formedness: the check refuses each ill-formed word (R57, R59). An Instr is well formed by its type. -/

theorem test_wf_refuses_rsv : wordWellFormed 0x01000000 = false ∧ wordWellFormed 0x18000000 = false := by decide

theorem test_wf_refuses_opcode : wordWellFormed 0x40000000 = false ∧ wordWellFormed 0xF0000000 = false := by decide

theorem test_wf_refuses_operands : wordWellFormed 0x00000001 = false ∧ wordWellFormed 0x30000001 = false := by decide

theorem test_wf_accepts : (wordWellFormed 0x00000000 && wordWellFormed 0x10FFFFFF && wordWellFormed 0x20FFFFFF &&
    wordWellFormed 0x30000000 && Instr.wellFormed .nop && Instr.wellFormed (.interp 255 0 128) &&
    Instr.wellFormed (.lookup 0 255 1) && Instr.wellFormed .build) = true := by decide

/-! ## Decode: words written from the bit layout OOOO 0000 AAAAAAAA BBBBBBBB CCCCCCCC of R55 -/

theorem test_decode_nop : decode 0b0000_0000_00000000_00000000_00000000 = .ok .nop := by decide

theorem test_decode_interp : decode 0b0001_0000_10000000_01000000_11001000 = .ok (.interp 128 64 200) := by decide

theorem test_decode_lookup : decode 0b0010_0000_00000001_11111111_00000010 = .ok (.lookup 1 255 2) := by decide

theorem test_decode_build : decode 0b0011_0000_00000000_00000000_00000000 = .ok .build := by decide

theorem test_decode_illegal : decode 0x0F000000 = .error .reservedField ∧ decode 0x11000000 = .error .reservedField ∧
    decode 0xFFFFFFFF = .error .reservedField ∧ decode 0x300000FF = .error .operandsNotZero ∧
    decode 0xF0000000 = .error .noSuchOpcode := by decide

theorem test_encode_interp : encode (.interp 128 64 200) = 0x108040C8 := by decide

theorem test_table_word : decodeTableWord 32 0x2001FF02 = some (.lookup 1 255 2) ∧
    decodeTableWord 32 0x11000000 = none := by decide

/-! ## One command each -/

/-- V2, row 1. -/
theorem test_nop_reset : endsIn (exec .nop State.reset) (fun t => t.statusWord == 1) = true := by decide

/-- V2, row 2. -/
theorem test_nop_keeps_error :
    endsIn (exec .nop { State.reset with err := true, ecode := 2 }) (fun t => t.statusWord == 0x23) = true := by decide

/-- V3: BUILD before the grid counts are written. -/
theorem test_build_bad_config : endsIn (exec .build State.reset) (fun t => t.statusWord == 0x32 && t.mem == []) = true := by
  decide

/-- V3: GRIDN_R = 17, GRIDN_B = 256; the host would read 0x08080008 at 0x01200. -/
theorem test_build_entries :
    sample 17 128 = ⟨8, 0x0808⟩ ∧ sample 2 128 = ⟨0, 32897⟩ ∧ sample 256 128 = ⟨128, 0⟩ ∧ sample 33 254 = ⟨31, 57312⟩ := by
  decide

/-- R73, example. -/
theorem test_lookup_vertex :
    endsIn (exec (.lookup 1 1 1)
        ((((configured 3 2 2 2).setDens 21 100).setDens 22 200).setDens 23 300))
      (fun t => t.outReg 0 == 100 && t.outReg 1 == 200 && t.outReg 2 == 300 && t.statusWord == 1) = true := by decide

/-- W6, row 2. -/
theorem test_lookup_out_of_range :
    endsIn (exec (.lookup 2 0 0) (cubeC 0 0 0)) (fun t => t.statusWord == 0x12 && t.outReg 0 == 0) = true := by decide

/-- W1: with a bias of 0x8000 the output would be 0. -/
theorem test_interp_rounding :
    endsIn (exec (.interp 5 0 0) stateW1) (fun t => t.outReg 0 == 1 && t.statusWord == 1) = true := by decide

/-- V5, the seventh row: case BGR. -/
theorem test_interp_bgr :
    endsIn (exec (.interp 1 1 1) (cubeC 0x1234 0x5678 0x9ABC)) (fun t => t.outReg 0 == 2849) = true := by decide

/-! ## Operations -/

/-- V6, rows 1, 3 and 5. -/
theorem test_combine_band :
    combine .wrap32 ⟨0, 65535, 0, 0⟩ 32768 0 0 = 32767 ∧ combine .wide ⟨0, 65535, 0, 0⟩ 32768 0 0 = 32768 ∧
    combine .wrap32 ⟨0, 65535, 0, 0⟩ 32897 0 0 = -32640 ∧ combine .wide ⟨0, 65535, 0, 0⟩ 32897 0 0 = 32897 ∧
    combine .wrap32 ⟨65535, -65535, 0, 0⟩ 51401 0 0 = 79671 ∧ combine .wide ⟨65535, -65535, 0, 0⟩ 51401 0 0 = 14134 := by
  decide

/-- V6, rows 3 and 5: truncation and saturation. -/
theorem test_convert : convert false (-32640) = 32896 ∧ convert true (-32640) = 0 ∧
    convert false 79671 = 14135 ∧ convert true 79671 = 65535 := by decide

/-- R9. -/
theorem test_asr : asr (-1) 16 = -1 := by decide

/-- V4: the index function. -/
theorem test_dens_index : (configured 13 17 17 17).densIndex 16 16 16 0 = 63856 ∧
    (configured 16 16 16 16).densIndex 15 15 15 0 = 65520 := by decide

/-- V4: the limits of CfgOK. -/
theorem test_cfg_ok : (configured 16 16 16 16).cfgOK = true ∧ (configured 14 17 17 17).cfgOK = false ∧
    (configured 17 2 2 2).cfgOK = false ∧ (configured 0 2 2 2).cfgOK = false ∧ (configured 1 257 1 1).cfgOK = false := by
  decide

/-! ## Steps -/

/-- P2: an illegal word after BAD_CONFIG keeps the first code. -/
theorem test_step_first_code :
    endsIn (step (({ State.reset with err := true, ecode := 3 } : State).withFetchWord 32 0x01000000))
      (fun t => t.statusWord == 0x32 && t.pending == []) = true := by decide

/-- V3: what the host reads of a loaded GridSample entry, at 0x01200. -/
theorem test_step_read_sample :
    endsIn (step { State.reset.setGs .r 128 ⟨8, 2056⟩ with pending := [.read 0x01200 4] })
      (fun t => t.results == [0x08080008]) = true := by decide

/-- 10_state.md R24: writing 1 to bit 1 of STATUS clears ERR and ECODE and keeps LAST_OK. -/
theorem test_step_clear_error :
    endsIn (step { State.reset with lastOk := true, err := true, ecode := 2, pending := [.write 0x0C 4 2] })
      (fun t => t.statusWord == 1) = true := by decide

/-! ## Witnesses: concrete states and operands that meet the hypotheses of each statement, clause by clause -/

theorem witness_DecodeUndoesEncode : (Instr.interp 255 0 255).wellFormed = true := by decide

theorem witness_EncodeUndoesDecode : decode 0x20FFFFFF = .ok (.lookup 255 255 255) := by decide

theorem witness_DecodeFollowsTheOpcodeMap :
    (0x00000000 : Word) &&& 0xFFFFFFFF = 0x00000000 ∧ (0x10FFFFFF : Word) &&& 0xFF000000 = 0x10000000 ∧
    (0x20000000 : Word) &&& 0xFF000000 = 0x20000000 ∧ (0x30000000 : Word) &&& 0xFFFFFFFF = 0x30000000 ∧
    ∃ i, decode 0x30000000 = .ok i := ⟨by decide, by decide, by decide, by decide, .build, by decide⟩

theorem not_ok_of_toOption {w : Word} (h : (decode w).toOption = none) : ∀ i, decode w ≠ .ok i := by
  intro i hi; rw [hi] at h; cases h

theorem witness_IllegalWordsRaiseIllegalCommand :
    (∀ i, decode 0x01000000 ≠ .ok i) ∧ (∀ i, decode 0x0F000000 ≠ .ok i) ∧ (∀ i, decode 0x40000000 ≠ .ok i) ∧
    (∀ i, decode 0xF0000000 ≠ .ok i) ∧ (∀ i, decode 0x00000001 ≠ .ok i) ∧ (∀ i, decode 0x30FFFFFF ≠ .ok i) :=
  ⟨not_ok_of_toOption (by decide), not_ok_of_toOption (by decide), not_ok_of_toOption (by decide),
    not_ok_of_toOption (by decide), not_ok_of_toOption (by decide), not_ok_of_toOption (by decide)⟩

/-- The state after reset with one event waiting. -/
def withEvent (s : State) (e : BusEvent) : State := { s with pending := [e] }

theorem witness_StepRunsTheDecodedCommand :
    decode 0x108040C8 = .ok (.interp 128 64 200) ∧
    (withEvent stateW1 (.write 0x10 4 0x108040C8)).pending = .write (stateW1.params.baseAddr + 0x10) 4 0x108040C8 :: [] := by
  decide

theorem witness_IdleBlockStaysAsItIs : State.reset.pending = [] := rfl

theorem witness_EachStepConsumesTheOldestEvent : ∃ t : State,
    (withEvent State.reset (.write 0x14 4 3)).pending = .write 0x14 4 3 :: [] ∧
    step (withEvent State.reset (.write 0x14 4 3)) = .next t := ⟨_, rfl, rfl⟩

/-- One line waiting, after reset. -/
def withLine (l : HostLine) : State := State.reset.withProgram [l]

theorem withLine_pending (l : HostLine) : (withLine l).pending = l.expand (withLine l).params ++ [] := by
  simp [withLine, State.withProgram, State.reset, State.atReset]

/-- Every clause, at a boundary of its range: the last and the first offset, entry and register. -/
theorem witness_HostLinesDoWhatTheySay :
    (∀ l ∈ [HostLine.wr 0x7FFFC 0xFFFFFFFF, .rd 0, .command (.interp 1 2 3), .cfg 255 0 256 511, .sat true, .sat false,
        .clrerr, .ldDens 65535 65535, .ldGs (Axis.index .b) (255 : Byte).toNat 65535 65535, .rdOut 15, .rdStatus],
      (withLine l).pending = l.expand (withLine l).params ++ []) ∧
    (∀ l, (withLine l).params.Legal ∧ 65535 < (withLine l).params.densDepth ∧ 15 < (withLine l).params.maxOut) ∧
    65535 < 65536 :=
  ⟨fun l _ => withLine_pending l, fun l => by
    have h : (withLine l).params = Params.default := rfl
    rw [h]; decide, by decide⟩

theorem witness_ResetEventResetsTheBlock : (withEvent stateW1 .reset).pending = .reset :: [] := rfl

theorem witness_ResetSatisfiesInv : Params.Legal ⟨1, 1, 1, .wide, 0⟩ ∧ Params.Legal ⟨64, 256, 65536, .wrap32, 5⟩ := by decide

/-- One density written, an error in STATUS, and a NOP waiting. -/
def stateInv : State :=
  { withEvent (State.reset.setDens 65535 7) (.write 0x10 4 0) with err := true, ecode := 2 }

theorem witness_EveryStepKeepsInv : stateInv.Inv ∧ ∃ t, step stateInv = .next t := by
  refine ⟨⟨by decide, by decide, by decide, ?_, by simp [State.StatusOK, stateInv]⟩, _, rfl⟩
  have h : (State.reset).EntriesWhole := fun a ha => by cases ha
  exact entriesWhole_congr (s := State.reset.setDens 65535 7) rfl rfl (entriesWhole_setDens h (by decide) 7)

theorem witness_MemoriesThatReadAlikeAreEqual :
    stateW1.mem.wf ∧ stateW1.mem.wf ∧ ∀ a, stateW1.mem.byte a = stateW1.mem.byte a := ⟨by decide, by decide, fun _ => rfl⟩

theorem witness_ErroneousCommandChangesOnlyStatus : ∃ t u,
    exec (.interp 0 0 0) State.reset = .next t ∧ t.lastOk = false ∧
    execute 0xFFFFFFFF State.reset = .next u ∧ u.lastOk = false := ⟨_, _, rfl, rfl, rfl, rfl⟩

theorem witness_LastOkTellsCompletionFromError : ∃ t u,
    exec .nop State.reset = .next t ∧ t.lastOk = true ∧ exec .build State.reset = .next u ∧ u.lastOk = false :=
  ⟨_, _, rfl, rfl, rfl, rfl⟩

/-- After reset with an error recorded. -/
def erred : State := { State.reset with err := true, ecode := 3 }

theorem witness_ErrIsSticky : ∃ t u v,
    erred.err = true ∧ step (erred.withFetchWord 32 0x40000000) = .next t ∧ t.err = true ∧
    step (withEvent erred .reset) = .next u ∧ u.err = false ∧
    step (withEvent erred (.write 0x0C 4 2)) = .next v ∧ v.err = false := ⟨_, _, _, rfl, rfl, rfl, rfl, rfl, rfl, rfl⟩

theorem witness_EarlierErrorsDoNotChangeLaterCommands :
    (∃ t, exec .nop erred = .next t) ∧ ∃ f, exec (.lookup 0 0 0) (configured 1 1 1 1) = .fault f := ⟨⟨_, rfl⟩, _, rfl⟩

theorem cfgOK_of {s : State} (h : s.cfgOK = true) : CfgOK s := (cfgOK_iff s).1 h

theorem not_cfgOK_of {s : State} (h : s.cfgOK = false) : ¬ CfgOK s := fun hc => by
  rw [(cfgOK_iff s).2 hc] at h; cases h

theorem witness_IllegalWordsRaiseIllegalCommand_lookup :
    decode 0x20020000 = .ok (.lookup 2 0 0) ∧ CfgOK (configured 1 2 2 2) ∧ (configured 1 2 2 2).gridN .r ≤ (2 : Byte).toNat :=
  ⟨by decide, cfgOK_of (by decide), by decide⟩

theorem witness_ResetLeavesTheStatedValues : Instr.build ≠ .nop := by decide

theorem witness_NopSetsLastOkOnly : decode 0 = .ok .nop ∧ ((0x0FFFFFFF : Word).toNat / 2 ^ 28 = 0 ∧ (0x0FFFFFFF : Word) ≠ 0) ∧
    ((1 : Word).toNat / 2 ^ 28 = 0 ∧ (1 : Word) ≠ 0) := by decide

theorem witness_BadConfigComesBeforeRange :
    ¬ CfgOK State.reset ∧ ¬ CfgOK (configured 17 2 2 2) ∧ ¬ CfgOK (configured 1 257 1 1) ∧ ¬ CfgOK (configured 14 17 17 17) :=
  ⟨not_cfgOK_of (by decide), not_cfgOK_of (by decide), not_cfgOK_of (by decide), not_cfgOK_of (by decide)⟩

/-- Cube C without its high corner. -/
def cubeHole : State :=
  withSamples (withDens (configured 1 2 2 2) [1000, 2000, 3000, 4000, 5000, 7000, 9000]) 1 ⟨0, 3⟩ 1 ⟨0, 2⟩ 1 ⟨0, 1⟩

theorem witness_UnwrittenEntryStopsItsReader_samples :
    CfgOK (configured 1 1 1 1) ∧ (configured 1 1 1 1).gs .r 255 = none ∧
    (((configured 1 1 1 1).setGs .r 0 ⟨0, 0⟩).gs .r 0).isSome ∧
      ((configured 1 1 1 1).setGs .r 0 ⟨0, 0⟩).gs .g 255 = none ∧
    (((withSamples (configured 1 1 1 1) 0 ⟨0, 0⟩ 0 ⟨0, 0⟩ 0 ⟨0, 0⟩).gs .r 0).isSome ∧
      ((withSamples (configured 1 1 1 1) 0 ⟨0, 0⟩ 0 ⟨0, 0⟩ 0 ⟨0, 0⟩).gs .g 0).isSome ∧
      (withSamples (configured 1 1 1 1) 0 ⟨0, 0⟩ 0 ⟨0, 0⟩ 0 ⟨0, 0⟩).gs .b 255 = none) :=
  ⟨cfgOK_of (by decide), by decide, by decide, by decide, by decide, by decide, by decide⟩

theorem witness_UnwrittenEntryStopsItsReader_densities :
    CfgOK cubeHole ∧
    (cubeHole.gs .r 1 = some (samplesC 3 2 1).r ∧ cubeHole.gs .g 1 = some (samplesC 3 2 1).g ∧
      cubeHole.gs .b 1 = some (samplesC 3 2 1).b ∧ CubeInGrid cubeHole (samplesC 3 2 1) ∧
      caseOrder (classify 3 2 1) = some (.r, .g, .b) ∧ 0 < cubeHole.noutN ∧
      path (.r, .g, .b) = [⟨false, false, false⟩, ⟨true, false, false⟩, ⟨true, true, false⟩] ++ ⟨true, true, true⟩ :: [] ∧
      cubeHole.dens (cornerIndex cubeHole (samplesC 3 2 1) 0 ⟨true, true, true⟩) = none ∧
      (∀ c ∈ ([⟨false, false, false⟩, ⟨true, false, false⟩, ⟨true, true, false⟩] : List Corner),
        (cubeHole.dens (cornerIndex cubeHole (samplesC 3 2 1) 0 c)).isSome) ∧
      (∀ k', k' < 0 → ∀ c ∈ path (.r, .g, .b), (cubeHole.dens (cornerIndex cubeHole (samplesC 3 2 1) k' c)).isSome)) ∧
    (1 < cubeHole.gridN .r ∧ 1 < cubeHole.gridN .g ∧ 1 < cubeHole.gridN .b ∧ 0 < cubeHole.noutN ∧
      cubeHole.dens (cubeHole.densIndex 1 1 1 0) = none ∧
      (∀ k', k' < 0 → (cubeHole.dens (cubeHole.densIndex 1 1 1 k')).isSome)) :=
  ⟨cfgOK_of (by decide), ⟨by decide, by decide, by decide, by unfold CubeInGrid; decide, by decide, by decide, by decide,
    by decide, by decide, fun _ h => absurd h (by omega)⟩, by decide, by decide, by decide, by decide, by decide,
    fun _ h => absurd h (by omega)⟩

theorem gridOK_of {s : State} (h : s.gridOK = true) : GridOK s := (gridOK_iff s).1 h

theorem witness_BuildFillsTheArrays :
    GridOK (configured 0 256 256 1) ∧ ¬ GridOK (configured 1 0 2 2) ∧ ¬ GridOK (configured 1 1 1 257) :=
  ⟨gridOK_of (by decide), fun h => absurd (h .r).1 (by decide), fun h => absurd (h .b).2 (by decide)⟩

theorem witness_SampleIsTheNearestPosition : (1 ≤ 1 ∧ 1 ≤ 256) ∧ (1 ≤ 256 ∧ 256 ≤ 256) := by decide

theorem witness_BuiltArraysAreMonotoneAndInRange :
    1 ≤ 256 ∧ (0 : Byte).toNat ≤ (255 : Byte).toNat ∧ (sample 256 255).base.toNat = 256 - 1 := by decide

/-- One vertex, its density written. -/
def oneVertex : State := (configured 1 1 1 1).setDens 0 9

/-- One vertex, its density written, after BUILD. -/
def oneVertexBuilt : State := complete (buildSamples oneVertex)

theorem oneVertexBuilt_gs (a : Axis) (i : Byte) : oneVertexBuilt.gs a i = some ⟨0, 0⟩ := by
  have h : oneVertexBuilt.gs a i = some (sample (oneVertex.gridN a) i) := gs_buildSamples oneVertex a i
  have hn : oneVertex.gridN a = 1 := by cases a <;> rfl
  rw [h, hn]; clear h; revert i; decide

theorem oneVertexBuilt_cfgOK : oneVertexBuilt.cfgOK = true := by
  have h : oneVertexBuilt.cfgOK = oneVertex.cfgOK := rfl
  rw [h]; decide

theorem oneVertexBuilt_dens : oneVertexBuilt.dens 0 = some 9 := by
  have h : oneVertexBuilt.dens 0 = oneVertex.dens 0 := dens_buildSamples oneVertex 0
  rw [h]; decide

theorem oneVertexBuilt_interp : ∃ u, exec (.interp 7 8 9) oneVertexBuilt = .next u := by
  refine ⟨_, execInterp_next (p := ⟨⟨0, 0⟩, ⟨0, 0⟩, ⟨0, 0⟩⟩) (v := fun _ => 9) oneVertexBuilt_cfgOK (oneVertexBuilt_gs _ _)
    (oneVertexBuilt_gs _ _) (oneVertexBuilt_gs _ _) (by decide) fun k hk => ?_⟩
  have hk : k = 0 := by have : oneVertexBuilt.noutN = 1 := rfl; omega
  subst hk
  have hd : ∀ c, cornerDensity (.interp 7 8 9) oneVertexBuilt ⟨⟨0, 0⟩, ⟨0, 0⟩, ⟨0, 0⟩⟩ 0 c = .ok 9 := fun c =>
    density_ok.2 (by
      have : oneVertexBuilt.densIndex (GridSample.coord ⟨0, 0⟩ c.sx) (GridSample.coord ⟨0, 0⟩ c.sy)
        (GridSample.coord ⟨0, 0⟩ c.sz) 0 = 0 := by obtain ⟨x, y, z⟩ := c; revert x y z; decide
      rw [this]; exact oneVertexBuilt_dens)
  refine interpChannel_ok (c := ⟨9, 0, 0, 0⟩) ?_
  have hcl : classify 0 0 0 = .rgb := by decide
  show coeffs _ (classify 0 0 0) = _
  rw [hcl]
  rw [coeffs, readCorners_ok (hd _) (hd _) (hd _) (hd _)]
  decide

theorem witness_InterpAfterBuildNeverLeavesTheGrid :
    oneVertex.params.Legal ∧ CfgOK oneVertex ∧ exec .build oneVertex = .next oneVertexBuilt ∧
    ∃ u, exec (.interp 7 8 9) oneVertexBuilt = .next u :=
  ⟨by decide, cfgOK_of (by decide), by rw [exec_build, if_pos (by decide)]; rfl, oneVertexBuilt_interp⟩

theorem witness_DensIndexIsOneToOneOnto :
    CfgOK (configured 16 16 16 16) ∧ 15 < (configured 16 16 16 16).gridN .r ∧ 15 < (configured 16 16 16 16).gridN .g ∧
    15 < (configured 16 16 16 16).gridN .b ∧ 15 < (configured 16 16 16 16).noutN ∧
    65535 < (configured 16 16 16 16).noutN * (configured 16 16 16 16).gridN .r * (configured 16 16 16 16).gridN .g *
      (configured 16 16 16 16).gridN .b :=
  ⟨cfgOK_of (by decide), by decide, by decide, by decide, by decide, by decide⟩

theorem witness_LookupReturnsTheVertex :
    CfgOK (cubeC 0 0 0) ∧ 1 < (cubeC 0 0 0).gridN .r ∧ 1 < (cubeC 0 0 0).gridN .g ∧ 1 < (cubeC 0 0 0).gridN .b ∧
    (∀ k, k < (cubeC 0 0 0).noutN → (cubeC 0 0 0).dens ((cubeC 0 0 0).densIndex 1 1 1 k) = some 12000) ∧
    ¬ CfgOK (configured 0 2 2 2) ∧
    ¬ (2 < (cubeC 0 0 0).gridN .r ∧ 0 < (cubeC 0 0 0).gridN .g ∧ 0 < (cubeC 0 0 0).gridN .b) :=
  ⟨cfgOK_of (by decide), by decide, by decide, by decide, by decide, not_cfgOK_of (by decide), by decide⟩

/-- The densities of cube C by corner. -/
def densC (c : Corner) : U16 :=
  match c with
  | ⟨false, false, false⟩ => 1000
  | ⟨false, false, true⟩ => 2000
  | ⟨false, true, false⟩ => 3000
  | ⟨false, true, true⟩ => 4000
  | ⟨true, false, false⟩ => 5000
  | ⟨true, false, true⟩ => 7000
  | ⟨true, true, false⟩ => 9000
  | ⟨true, true, true⟩ => 12000

theorem witness_InterpReturnsTheInterpolatedPixel :
    CfgOK (cubeC 0x1234 0x5678 0x9ABC) ∧
    (cubeC 0x1234 0x5678 0x9ABC).gs .r 1 = some (samplesC 0x1234 0x5678 0x9ABC).r ∧
    (cubeC 0x1234 0x5678 0x9ABC).gs .g 1 = some (samplesC 0x1234 0x5678 0x9ABC).g ∧
    (cubeC 0x1234 0x5678 0x9ABC).gs .b 1 = some (samplesC 0x1234 0x5678 0x9ABC).b ∧
    CubeInGrid (cubeC 0x1234 0x5678 0x9ABC) (samplesC 0x1234 0x5678 0x9ABC) ∧
    caseOrder (classify 0x1234 0x5678 0x9ABC) = some (.b, .g, .r) ∧
    (∀ k, k < (cubeC 0x1234 0x5678 0x9ABC).noutN → ∀ c ∈ path (.b, .g, .r),
      (cubeC 0x1234 0x5678 0x9ABC).dens
        (cornerIndex (cubeC 0x1234 0x5678 0x9ABC) (samplesC 0x1234 0x5678 0x9ABC) k c) = some (densC c)) :=
  ⟨cfgOK_of (by decide), by decide, by decide, by decide, by unfold CubeInGrid; decide, by decide, by decide⟩

/-- W6: the upper coordinate on axis R is vertex 2, which a grid of two points lacks. -/
theorem witness_InterpOutsideTheGridRaises :
    CfgOK ((cubeC 0 0 0).setGs .r 9 ⟨1, 0x100⟩) ∧ ((cubeC 0 0 0).setGs .r 9 ⟨1, 0x100⟩).gs .r 9 = some ⟨1, 0x100⟩ ∧
    ((cubeC 0 0 0).setGs .r 9 ⟨1, 0x100⟩).gs .g 1 = some ⟨0, 0⟩ ∧
    ((cubeC 0 0 0).setGs .r 9 ⟨1, 0x100⟩).gs .b 1 = some ⟨0, 0⟩ ∧
    ¬ CubeInGrid ((cubeC 0 0 0).setGs .r 9 ⟨1, 0x100⟩) ⟨⟨1, 0x100⟩, ⟨0, 0⟩, ⟨0, 0⟩⟩ :=
  ⟨cfgOK_of (by decide), by decide, by decide, by decide, by unfold CubeInGrid; decide⟩

theorem witness_CornerTableFollowsThePaths :
    caseOrder .gbr = some (.g, .b, .r) ∧
    (∀ c ∈ path (.g, .b, .r), (fun q => (.ok (densC q) : Except Fault U16)) c = .ok (densC c)) ∧
    (fun q => (.ok (densC q) : Except Fault U16)) lowCorner = .ok (densC lowCorner) := ⟨rfl, fun _ _ => rfl, rfl⟩

/-- V6, row 1: rest and t both wrap. -/
theorem witness_CombineFoldsWithTheBias :
    (IsS32 (-2147483647) ∧ (2 ^ 32 : Int) ∣ -2147483647 - (65535 * 32768 + 0 * 0 + 0 * 0 + 0x8001)) ∧
    (IsS32 2147450881 ∧ (2 ^ 32 : Int) ∣ 2147450881 - (-2147483647 + Int.fdiv (-2147483647) 65536)) ∧
    (IsS32 32767 ∧ (2 ^ 32 : Int) ∣ 32767 - (0 + Int.fdiv 2147450881 65536)) ∧
    (2147483649 : Int) = 65535 * 32768 + 0 * 0 + 0 * 0 + 0x8001 := by unfold IsS32; decide

theorem witness_VertexInputGivesTheStoredDensity :
    CfgOK (withSamples (cubeC 0 0 0) 255 ⟨1, 0⟩ 255 ⟨1, 0⟩ 255 ⟨1, 0⟩) ∧
    (withSamples (cubeC 0 0 0) 255 ⟨1, 0⟩ 255 ⟨1, 0⟩ 255 ⟨1, 0⟩).gs .r 255 = some ⟨1, 0⟩ ∧
    (withSamples (cubeC 0 0 0) 255 ⟨1, 0⟩ 255 ⟨1, 0⟩ 255 ⟨1, 0⟩).gs .g 255 = some ⟨1, 0⟩ ∧
    (withSamples (cubeC 0 0 0) 255 ⟨1, 0⟩ 255 ⟨1, 0⟩ 255 ⟨1, 0⟩).gs .b 255 = some ⟨1, 0⟩ ∧
    1 < (cubeC 0 0 0).gridN .r ∧ 1 < (cubeC 0 0 0).gridN .g ∧ 1 < (cubeC 0 0 0).gridN .b ∧
    (∀ k, k < (withSamples (cubeC 0 0 0) 255 ⟨1, 0⟩ 255 ⟨1, 0⟩ 255 ⟨1, 0⟩).noutN →
      (withSamples (cubeC 0 0 0) 255 ⟨1, 0⟩ 255 ⟨1, 0⟩ 255 ⟨1, 0⟩).dens
        ((withSamples (cubeC 0 0 0) 255 ⟨1, 0⟩ 255 ⟨1, 0⟩ 255 ⟨1, 0⟩).densIndex 1 1 1 k) = some 12000) :=
  ⟨cfgOK_of (by decide), by decide, by decide, by decide, by decide, by decide, by decide, by decide⟩

/-- W3, row 1: RGB and GRB tie, and both sums are the 311296000 of the table. -/
theorem witness_TiedCasesGiveTheSameResult :
    caseOrder .rgb = some (.r, .g, .b) ∧ caseOrder .grb = some (.g, .r, .b) ∧
    Holds (.r, .g, .b) 0x8000 0x8000 0x4000 ∧ Holds (.g, .r, .b) 0x8000 0x8000 0x4000 ∧
    coeffs (fun q => .ok (densC q)) .rgb = .ok ⟨1000, 4000, 4000, 3000⟩ ∧
    coeffs (fun q => .ok (densC q)) .grb = .ok ⟨1000, 6000, 2000, 3000⟩ ∧
    weightedSum ⟨1000, 4000, 4000, 3000⟩ 0x8000 0x8000 0x4000 = 311296000 := by decide

/-- W5: cube C in both channels. -/
def twoChannels : State :=
  withSamples (withDens (configured 2 2 2 2)
    [1000, 1000, 2000, 2000, 3000, 3000, 4000, 4000, 5000, 5000, 7000, 7000, 9000, 9000, 12000, 12000])
    128 ⟨0, 32897⟩ 64 ⟨0, 16448⟩ 200 ⟨0, 51401⟩

theorem witness_EqualChannelsGiveEqualOutputs :
    twoChannels.gs .r 128 = some ⟨0, 32897⟩ ∧ twoChannels.gs .g 64 = some ⟨0, 16448⟩ ∧
    twoChannels.gs .b 200 = some ⟨0, 51401⟩ ∧ 0 < twoChannels.noutN ∧ 1 < twoChannels.noutN ∧
    (∀ c : Corner, twoChannels.dens (cornerIndex twoChannels (samplesC 32897 16448 51401) 0 c) =
      twoChannels.dens (cornerIndex twoChannels (samplesC 32897 16448 51401) 1 c)) ∧
    ∃ t, exec (.interp 128 64 200) twoChannels = .next t ∧
      (t.lastOk && (t.outReg 0 == 5549 && t.outReg 1 == 5549)) = true :=
  ⟨by decide, by decide, by decide, by decide, by decide,
    fun ⟨x, y, z⟩ => by revert x y z; decide, exists_of_endsIn (by decide)⟩

theorem witness_WideResultStaysBetweenTheCorners :
    caseOrder (classify 0xFFFF 0xFFFF 0xFFFF) = some (.r, .g, .b) ∧
    (∀ c ∈ path (.r, .g, .b), (1000 : U16).toNat ≤ (densC c).toNat ∧ (densC c).toNat ≤ (12000 : U16).toNat) := by decide

/-- Two corners that differ by 32766 = 0x7FFE: the bound of the band. -/
def densBand (c : Corner) : U16 := if c.sx then 32766 else 0

theorem witness_WrapAgreesWithWideInsideTheBand :
    ((0 : Int) ≤ 65535 ∧ (65535 : Int) ≤ 65535 ∧ -0x7FFE0000 ≤ weightedSum ⟨65535, -32766, 0, 0⟩ 65536 0 0 ∧
      weightedSum ⟨65535, -32766, 0, 0⟩ 65536 0 0 = -0x7FFE0000) ∧
    weightedSum ⟨0, 32766, 0, 0⟩ 65536 0 0 = 0x7FFE0000 ∧
    caseOrder (classify 0xFFFF 0 0) = some (.r, .g, .b) ∧
    (∀ c ∈ path (.r, .g, .b), (densBand c).toNat ≤ (densBand lowCorner).toNat + 32766 ∧
      (densBand lowCorner).toNat ≤ (densBand c).toNat + 32766) := by decide

theorem witness_WrapIsWithinOneUnitOfWide :
    caseOrder (classify (32897 : U16).toNat (0 : U16).toNat (0 : U16).toNat) = some (.r, .g, .b) := by decide

theorem witness_CommandsWriteOnlyWhatTheyMay : ∃ t u v,
    exec .build oneVertex = .next t ∧ exec (.lookup 1 1 1) (cubeC 0 0 0) = .next u ∧
    exec (.lookup 2 0 0) (cubeC 0 0 0) = .next v :=
  ⟨_, _, _, by rw [exec_build, if_pos (by decide)], rfl, rfl⟩

/-- A state with other values in OUT and STATUS. -/
def otherOut (s : State) : State := { s with out := List.replicate 16 5, err := true, ecode := 1 }

theorem otherOut_eq (s : State) : otherOut s = { s with
    lastOk := (otherOut s).lastOk, err := (otherOut s).err, ecode := (otherOut s).ecode, out := (otherOut s).out,
    pending := (otherOut s).pending, results := (otherOut s).results, draws := (otherOut s).draws } := rfl

theorem witness_CommandsDependOnlyOnTheBlock :
    otherOut (cubeC 3 2 1) = { cubeC 3 2 1 with
      lastOk := (otherOut (cubeC 3 2 1)).lastOk, err := (otherOut (cubeC 3 2 1)).err,
      ecode := (otherOut (cubeC 3 2 1)).ecode, out := (otherOut (cubeC 3 2 1)).out,
      pending := (otherOut (cubeC 3 2 1)).pending, results := (otherOut (cubeC 3 2 1)).results,
      draws := (otherOut (cubeC 3 2 1)).draws } ∧
    Instr.interp 1 1 1 ≠ .nop ∧ Instr.interp 1 1 1 ≠ .build ∧
    ∃ t, exec (.interp 1 1 1) (cubeC 3 2 1) = .next t ∧ t.lastOk = true :=
  ⟨otherOut_eq _, by decide, by decide, exists_of_endsIn (q := fun t => t.lastOk) (by decide)⟩

theorem witness_FullTablesLetEveryCommandRun :
    CfgOK oneVertexBuilt ∧ oneVertexBuilt.TablesFull ∧ 0 < oneVertexBuilt.gridN .r ∧ 0 < oneVertexBuilt.gridN .g ∧
    0 < oneVertexBuilt.gridN .b :=
  ⟨cfgOK_of oneVertexBuilt_cfgOK, ⟨fun a i => by rw [oneVertexBuilt_gs]; rfl, fun j hj => by
    have hj : j = 0 := by have : j < 1 := hj; omega
    subst hj; rw [oneVertexBuilt_dens]; rfl⟩, Nat.one_pos, Nat.one_pos, Nat.one_pos⟩

/-- A state with the last entry of each RAM written, and an access waiting. -/
def hostState (e : BusEvent) : State :=
  withEvent ((withSamples State.reset 255 ⟨1, 2⟩ 255 ⟨3, 4⟩ 255 ⟨5, 6⟩).setDens 65535 7) e

theorem not_named_of {p : Params} {off : Nat} (hp : p.Legal) (h1 : 0x24 < off)
    (h2 : 0x100 + 4 * p.maxOut ≤ off ∨ off < 0x100) (h3 : 0x1C00 ≤ off ∨ off < 0x1000)
    (h4 : 0x40000 + 4 * p.densDepth ≤ off ∨ off < 0x40000) : ¬ Named p off := by
  rintro (h | ⟨k, hk, rfl⟩ | ⟨a, i, rfl⟩ | ⟨j, hj, rfl⟩)
  · omega
  · omega
  · have hi := i.isLt
    cases a <;> simp only [Axis.index] at h3 <;> omega
  · omega

/-- The highest and lowest reserved offsets of each gap. -/
theorem witness_reserved_offsets :
    ¬ Named Params.default 0x28 ∧ ¬ Named Params.default 0xFC ∧ ¬ Named Params.default 0x140 ∧
    ¬ Named Params.default 0xFFC ∧ ¬ Named Params.default 0x1C00 ∧ ¬ Named Params.default 0x3FFFC ∧
    ¬ Named ⟨64, 256, 65535, .wide, 0⟩ 0x7FFFC := by
  refine ⟨?_, ?_, ?_, ?_, ?_, ?_, ?_⟩ <;> exact not_named_of (by decide) (by decide) (by decide) (by decide) (by decide)

theorem witness_HostReadReturnsTheRegister :
    (∀ e, (hostState e).params.Legal) ∧ 0x7FFFC % 4 = 0 ∧ 0x7FFFC ≤ 0x7FFFC ∧
    (∀ off, (hostState (.read off 4)).pending = .read ((hostState (.read off 4)).params.baseAddr + off) 4 :: []) ∧
    (15 < Params.default.maxOut ∧ 0x13C = 0x00100 + 4 * 15) ∧
    (∀ e, 0x1BFC = 0x01000 + 0x400 * Axis.index .b + 4 * (255 : Byte).toNat ∧ (hostState e).gs .b 255 = some ⟨5, 6⟩) ∧
    (∀ e, 65535 < Params.default.densDepth ∧ 0x7FFFC = 0x40000 + 4 * 65535 ∧ (hostState e).dens 65535 = some 7) := by
  refine ⟨fun e => by have h : (hostState e).params = Params.default := rfl
                      rw [h]; decide, by decide, by decide, fun off => ?_, by decide, fun e => ⟨by decide, ?_⟩, fun e => ⟨by decide, by decide, ?_⟩⟩
  · have : (hostState (.read off 4)).params.baseAddr = 0 := rfl
    rw [this, Nat.zero_add]; rfl
  · have h : (hostState e).gs .b 255 = (hostState .reset).gs .b 255 := gs_congr rfl _ _
    rw [h]; decide
  · have h : (hostState e).dens 65535 = (hostState .reset).dens 65535 := dens_congr rfl _
    rw [h]; decide

theorem witness_HostWriteUpdatesTheRegister (v : Word) (off : Nat) :
    (hostState (.write off 4 v)).params.Legal ∧
    (hostState (.write off 4 v)).pending = .write ((hostState (.write off 4 v)).params.baseAddr + off) 4 v :: [] ∧
    (0x0C % 4 = 0 ∧ 0x0C ≤ 0x7FFFC ∧ (2 : Word).getLsbD 1 = true ∧ (1 : Word).getLsbD 1 = false) ∧
    0x1000 = 0x01000 + 0x400 * Axis.index .r + 4 * (0 : Byte).toNat ∧
    (0 < Params.default.densDepth ∧ 0x40000 = 0x40000 + 4 * 0) := by
  refine ⟨by have h : (hostState (.write off 4 v)).params = Params.default := rfl
             rw [h]; decide, ?_, by decide, by decide, by decide⟩
  have : (hostState (.write off 4 v)).params.baseAddr = 0 := rfl
  rw [this, Nat.zero_add]; rfl

/-- After reset, with the aperture at BASE_ADDR = 0x1000 and one event waiting. -/
def withBase (e : BusEvent) : State :=
  { State.reset with params := { Params.default with baseAddr := 0x1000 }, pending := [e] }

theorem witness_InadmissibleAccessesAreRefused :
    (2 ≠ 4 ∧ 0x7FFFE < 0x80000 ∧
      (withBase (.read 0x80FFE 2)).pending = .read ((withBase (.read 0x80FFE 2)).params.baseAddr + 0x7FFFE) 2 :: []) ∧
    (0x0A % 4 ≠ 0 ∧
      (withBase (.write 0x100A 4 1)).pending = .write ((withBase (.write 0x100A 4 1)).params.baseAddr + 0x0A) 4 1 :: []) ∧
    (0x0FFC < (withBase (.read 0x0FFC 4)).params.baseAddr ∧ (withBase (.read 0x0FFC 4)).pending = .read 0x0FFC 4 :: []) ∧
    ((withBase (.write 0x81000 4 1)).params.baseAddr + 0x80000 ≤ 0x81000 ∧
      (withBase (.write 0x81000 4 1)).pending = .write 0x81000 4 1 :: []) := by decide

theorem witness_UnwrittenReadsDrawAFreeValue :
    (State.reset.gs .b 255 = none ∧
      (withEvent State.reset (.read 0x1BFC 4)).pending =
        .read (State.reset.params.baseAddr + (0x01000 + 0x400 * Axis.index .b + 4 * (255 : Byte).toNat)) 4 :: []) ∧
    (State.reset.params.Legal ∧ 65535 < State.reset.params.densDepth ∧ State.reset.dens 65535 = none ∧
      (withEvent State.reset (.read 0x7FFFC 4)).pending =
        .read (State.reset.params.baseAddr + (0x40000 + 4 * 65535)) 4 :: []) := by decide

theorem witness_RepeatedWritesAreIdempotent : ∃ t : State,
    State.reset.mem.wf ∧ 0x40000 ≠ 0x10 ∧
    step { State.reset with pending := [.write 0x40000 4 9, .write 0x40000 4 9] } = .next t :=
  ⟨_, by decide, by decide, rfl⟩

theorem witness_RegisterMapIsOneToOne :
    0x7FFFC % 4 = 0 ∧ slotAt Params.default 0x7FFFC ≠ .reserved ∧
    slotAt Params.default 0x7FFFC = slotAt Params.default 0x7FFFC := by decide

theorem witness_ReservedOffsetsAreThoseNotNamed :
    Params.default.Legal ∧ 0x13C % 4 = 0 ∧ slotAt Params.default 0x13C ≠ .reserved ∧
    slotAt Params.default 0x140 = .reserved := by decide

theorem witness_IdentificationReportsTheParameters :
    Params.Legal ⟨64, 256, 65536, .wide, 0⟩ ∧ capsWord ⟨64, 256, 65536, .wide, 0⟩ = 0x01000140 := by decide

end Sys2Proof.Tests
end

section
/-! Proofs for 00_scope.md: exactness of the arithmetic primitives (R8, R9), and the invariant of a run, kept operation by
operation along `step_cases` and `exec_next`. -/

namespace Sys2Proof.Machine

open Sys2Proof.Spec

/-! ## wrap32 and asr -/

theorem isS32_wrap32 (v : Int) : IsS32 (wrap32 v) := by
  unfold IsS32 wrap32
  omega

theorem dvd_sub_wrap32 (v : Int) : (2 ^ 32 : Int) ∣ v - wrap32 v := by
  have hsplit : v - wrap32 v = (v + 2 ^ 31) - (v + 2 ^ 31) % 2 ^ 32 := by unfold wrap32; ring
  rw [hsplit]
  exact Int.dvd_self_sub_emod

theorem asr_mul_le (v : Int) (n : Nat) : asr v n * 2 ^ n ≤ v :=
  Int.ediv_mul_le v (by positivity)

theorem lt_asr_add_one_mul (v : Int) (n : Nat) : v < (asr v n + 1) * 2 ^ n :=
  Int.lt_ediv_add_one_mul_self v (by positivity)

/-! ## The invariant under the operations -/

/-- The invariant looks at the parameters, the number of output registers, the memory, ERR and ECODE only. -/
theorem State.Inv.congr {s t : State} (h : s.Inv) (hparams : t.params = s.params)
    (hout : t.out.length = s.out.length) (hmem : t.mem = s.mem) (herr : t.err = s.err) (hecode : t.ecode = s.ecode) :
    t.Inv where
  paramsLegal := hparams ▸ h.paramsLegal
  outLength := by rw [hout, hparams, h.outLength]
  memWf := hmem ▸ h.memWf
  entriesWhole := entriesWhole_congr hmem hparams h.entriesWhole
  statusOK := by have := h.statusOK; unfold State.StatusOK at *; rwa [herr, hecode]

/-- After reset no byte is written, so the memory is canonical and its entries are whole. -/
theorem inv_atReset {p : Params} (hp : p.Legal) : (State.atReset p).Inv where
  paramsLegal := hp
  outLength := List.length_replicate
  memWf := List.Pairwise.nil
  entriesWhole := fun _ hbyte => nomatch hbyte
  statusOK := rfl

theorem inv_resetBlock {s : State} (h : s.Inv) : (resetBlock s).Inv :=
  (inv_atReset h.paramsLegal).congr rfl rfl rfl rfl rfl

theorem inv_complete {s : State} (h : s.Inv) : (complete s).Inv :=
  h.congr rfl rfl rfl rfl rfl

theorem inv_raiseError {s : State} (h : s.Inv) (c : ErrorCode) : (raiseError c s).Inv :=
  ⟨h.paramsLegal, h.outLength, h.memWf, h.entriesWhole, statusOK_raiseError h.statusOK c⟩

theorem inv_clearError {s : State} (h : s.Inv) : (clearError s).Inv :=
  ⟨h.paramsLegal, h.outLength, h.memWf, h.entriesWhole, rfl⟩

/-- At most MAX_OUT values written to OUT leave MAX_OUT registers. -/
theorem inv_writeOut {s : State} (h : s.Inv) {vs : List U16} (hvs : vs.length ≤ s.params.maxOut) :
    (s.writeOut vs).Inv :=
  h.congr rfl (length_writeOut (h.outLength ▸ hvs)) rfl rfl rfl

theorem inv_setGs {s : State} (h : s.Inv) (a : Axis) (i : Byte) (e : GridSample) : (s.setGs a i e).Inv :=
  ⟨h.paramsLegal, h.outLength, Memory.wf_setHalf (Memory.wf_setHalf h.memWf _ _) _ _,
    entriesWhole_setGs h.entriesWhole a i e, h.statusOK⟩

theorem inv_setDens {s : State} (h : s.Inv) {j : Nat} (hj : j < s.params.densDepth) (v : U16) : (s.setDens j v).Inv :=
  ⟨h.paramsLegal, h.outLength, Memory.wf_setHalf h.memWf _ _, entriesWhole_setDens h.entriesWhole hj v, h.statusOK⟩

theorem inv_buildSamples {s : State} (h : s.Inv) : (buildSamples s).Inv :=
  ⟨h.paramsLegal, h.outLength,
    Memory.wf_replaceRange h.memWf (wf_builtArrays _ _ _) (by decide) (fun _ hc => mem_builtArrays hc),
    entriesWhole_buildSamples h.entriesWhole, h.statusOK⟩

/-! ## The invariant under host accesses and commands -/

/-- What stands at an aligned offset exists under the parameters; a reserved slot asks for nothing. -/
theorem slotAt_exists (p : Params) {off : Nat} (h4 : off % 4 = 0) : (slotAt p off).Exists p := by
  rcases slotAt_offset (p := p) h4 with h | ⟨-, h⟩
  · rw [h]; trivial
  · exact h

theorem inv_hostRead {s : State} (h : s.Inv) (sl : Slot) : (hostRead s sl).Inv := by
  obtain ⟨v, n, heq⟩ := hostRead_eq s sl
  rw [heq]
  exact h.congr rfl rfl rfl rfl rfl

theorem inv_registerWrite {s : State} (h : s.Inv) (v : Word) {sl : Slot} (hsl : sl.Exists s.params) :
    (registerWrite s v sl).Inv := by
  cases sl with
  | id | caps | cmd | depth | out _ | reserved => exact h
  | ctrl | nout => exact h.congr rfl rfl rfl rfl rfl
  | gridn a => cases a <;> exact h.congr rfl rfl rfl rfl rfl
  | status =>
    simp only [registerWrite]
    split
    · exact inv_clearError h
    · exact h
  | gs a i => exact inv_setGs h a i _
  | dens j => exact inv_setDens h hsl _

theorem inv_of_completed {i : Instr} {s t : State} (h : s.Inv) (hc : Completed i s t) : t.Inv := by
  cases hc with
  | nop => exact inv_complete h
  | build => exact inv_complete (inv_buildSamples h)
  | out vs hlen hcfg =>
    obtain ⟨-, ⟨-, hnout⟩, -⟩ := (cfgOK_iff s).1 hcfg
    exact inv_complete (inv_writeOut h (hlen ▸ hnout))

theorem inv_of_exec {i : Instr} {s t : State} (h : s.Inv) (he : exec i s = .next t) : t.Inv := by
  rcases exec_next he with hc | ⟨c, rfl⟩
  · exact inv_of_completed h hc
  · exact inv_raiseError h c

theorem inv_of_execute {w : Word} {s t : State} (h : s.Inv) (he : execute w s = .next t) : t.Inv := by
  unfold execute at he
  split at he
  · cases he; exact inv_raiseError h _
  · exact inv_of_exec h he

theorem inv_of_step {s t : State} (h : s.Inv) (hstep : step s = .next t) : t.Inv := by
  rcases step_cases s with ⟨-, hidle⟩ | ⟨e, rest, -, hcase⟩
  · rw [hidle] at hstep; cases hstep; exact h
  have hrest : State.Inv { s with pending := rest } := h.congr rfl rfl rfl rfl rfl
  rcases hcase with ⟨-, heq⟩ | ⟨r, heq⟩ | ⟨sl, heq⟩ | ⟨off, v, h4, -, -, -, heq⟩ | ⟨v, -, heq⟩ <;> rw [heq] at hstep
  · cases hstep; exact inv_resetBlock hrest
  · cases hstep
  · cases hstep; exact inv_hostRead hrest sl
  · cases hstep; exact inv_registerWrite hrest v (slotAt_exists s.params h4)
  · exact inv_of_execute hrest hstep

/-! ## The obligations -/

/-- Settles O13: the step's cases, each by the lemma of its operation. -/
theorem everyStepKeepsInv : Obligations.EveryStepKeepsInv :=
  fun _ _ => inv_of_step

/-- Settles O36: wrap32 takes a multiple of 2^32 away, asr is the integer quotient rounded down. -/
theorem wrapAndShiftAreExact : Obligations.WrapAndShiftAreExact :=
  fun v n => ⟨isS32_wrap32 v, dvd_sub_wrap32 v, asr_mul_le v n, lt_asr_add_one_mul v n⟩

/-- Settles O7, by the equation of a step on an empty queue. -/
theorem idleBlockStaysAsItIs : Obligations.IdleBlockStaysAsItIs :=
  fun _ => step_nil

/-- Settles O12; the default parameters are in R6's ranges. -/
theorem resetSatisfiesInv : Obligations.ResetSatisfiesInv :=
  ⟨inv_atReset (by decide), fun _ => inv_atReset⟩

end Sys2Proof.Machine
end

section
/-! Proofs for the register map and the host's accesses (10_state.md R18 to R22, R25, R36; 20_memory.md R41 to R43): the
offsets the map names, then one rule for an admitted read and one for an admitted write, applied slot by slot. -/

namespace Sys2Proof.Machine

open Sys2Proof.Spec

/-! ## The register map -/

/-- A slot is found at one offset only, since `Slot.offset` inverts `slotAt`. -/
theorem slotAt_injective {p : Params} {off off' : Nat} (h4 : off % 4 = 0) (h4' : off' % 4 = 0)
    (hne : slotAt p off ≠ .reserved) (heq : slotAt p off = slotAt p off') : off = off' := by
  obtain ⟨hoff, -⟩ := (slotAt_offset h4).resolve_left hne
  obtain ⟨hoff', -⟩ := (slotAt_offset h4').resolve_left (heq ▸ hne)
  rw [hoff, heq, ← hoff']

/-- R41 names the offset of every slot that exists. -/
theorem named_offset {p : Params} {sl : Slot} (hne : sl ≠ .reserved) (hex : sl.Exists p) : Named p sl.offset := by
  cases sl with
  | id | caps | ctrl | status | cmd | nout | depth => exact .inl (by decide)
  | gridn a => exact .inl (by cases a <;> decide)
  | out k => exact .inr (.inl ⟨k, hex, rfl⟩)
  | gs a i => exact .inr (.inr (.inl ⟨a, i, rfl⟩))
  | dens j => exact .inr (.inr (.inr ⟨j, hex, rfl⟩))
  | reserved => exact absurd rfl hne

/-- Every word up to DEPTH is a register. -/
theorem registerAt_ne_reserved : ∀ off ≤ 0x24, off % 4 = 0 → registerAt off ≠ .reserved := by decide

/-- Something stands at every offset R41 names. -/
theorem slotAt_ne_reserved {p : Params} {off : Nat} (hp : p.Legal) (h4 : off % 4 = 0) (hn : Named p off) :
    slotAt p off ≠ .reserved := by
  rcases hn with hle | ⟨k, hk, rfl⟩ | ⟨a, i, rfl⟩ | ⟨j, hj, rfl⟩
  · rw [slotAt_register (by omega)]; exact registerAt_ne_reserved off hle h4
  · rw [slotAt_out hp hk]; nofun
  · rw [← gsAddr, slotAt_gs]; nofun
  · rw [← densAddr, slotAt_dens hj]; nofun

theorem slotAt_eq_reserved_iff {p : Params} {off : Nat} (hp : p.Legal) (h4 : off % 4 = 0) :
    slotAt p off = .reserved ↔ ¬ Named p off := by
  constructor
  · exact fun hres hn => slotAt_ne_reserved hp h4 hn hres
  · intro hn
    by_contra hne
    obtain ⟨hoff, hex⟩ := (slotAt_offset h4).resolve_left hne
    exact hn (hoff ▸ named_offset hne hex)

/-! ## The identification registers -/

/-- The number two joined bit strings make. -/
theorem toNat_append_eq_add {m n : Nat} (x : BitVec m) (y : BitVec n) :
    (x ++ y).toNat = x.toNat * 2 ^ n + y.toNat := by
  rw [BitVec.toNat_append, ← Nat.shiftLeft_add_eq_or_of_lt y.isLt, Nat.shiftLeft_eq]

/-- CAPS as a number (R21), for parameters in their ranges. -/
theorem toNat_capsWord {p : Params} (hp : p.Legal) :
    (capsWord p).toNat = p.maxOut + (if p.arith = .wide then 256 else 0) + 65536 * p.maxGrid := by
  obtain ⟨⟨-, hout⟩, ⟨-, hgrid⟩, -⟩ := hp
  have hwide : (BitVec.ofBool (decide (p.arith = .wide))).toNat = if p.arith = .wide then 1 else 0 := by
    cases p.arith <;> decide
  simp only [capsWord, toNat_append_eq_add, hwide, BitVec.ofNat_eq_ofNat, BitVec.toNat_ofNat]
  split <;> omega

theorem toNat_depthWord {p : Params} (hp : p.Legal) : (depthWord p).toNat = p.densDepth := by
  obtain ⟨-, -, -, hdepth⟩ := hp
  simp only [depthWord, BitVec.toNat_setWidth, BitVec.toNat_ofNat]
  omega

/-- CAPS bit 8 is ARITH_WIDE (R21). -/
theorem getLsbD_capsWord_eight (p : Params) : (capsWord p).getLsbD 8 = decide (p.arith = .wide) := by
  simp only [capsWord, BitVec.getLsbD_append]
  simp

/-! ## An admitted access -/

theorem step_read {s : State} {off : Nat} {rest : List BusEvent} (h4 : off % 4 = 0) (hlt : off < apertureSize)
    (hp : s.pending = .read (s.params.baseAddr + off) 4 :: rest) :
    step s = .next (hostRead { s with pending := rest } (slotAt s.params off)) := by
  rw [step_cons hp]
  simp only [perform, accessOffset_base h4 hlt]

theorem step_write {s : State} {off : Nat} {v : Word} {rest : List BusEvent} (h4 : off % 4 = 0)
    (hlt : off < apertureSize) (hp : s.pending = .write (s.params.baseAddr + off) 4 v :: rest) :
    step s = hostWrite { s with pending := rest } v (slotAt s.params off) := by
  rw [step_cons hp]
  simp only [perform, accessOffset_base h4 hlt]

theorem hostWrite_of_ne_cmd {s : State} {v : Word} {sl : Slot} (h : sl ≠ .cmd) :
    hostWrite s v sl = .next (registerWrite s v sl) := if_neg h

theorem hostRead_unwritten {s : State} {sl : Slot} (h : s.slotValue sl = none) :
    hostRead s sl =
      { s with results := drawFor (Config.freeHostRead s.draws) sl :: s.results, draws := s.draws + 1 } := by
  simp only [hostRead, h]

theorem slotValue_gs_eq_none {s : State} {a : Axis} {i : Byte} (h : s.gs a i = none) :
    s.slotValue (.gs a i) = none := by
  simp only [State.slotValue, h, Option.map_none]

theorem slotValue_dens_eq_none {s : State} {j : Nat} (h : s.dens j = none) : s.slotValue (.dens j) = none := by
  simp only [State.slotValue, h, Option.map_none]

theorem toNat_drawFor_dens (draw : Word) (j : Nat) : (drawFor draw (.dens j)).toNat = draw.toNat % 65536 := by
  simp only [drawFor, BitVec.toNat_setWidth]
  omega

theorem gsAddr_lt_apertureSize (a : Axis) (i : Byte) : gsAddr a i < apertureSize := by
  have := gsAddr_lt a i
  simp only [gsEnd] at this
  simp only [apertureSize]
  omega

theorem densAddr_lt_apertureSize {p : Params} (hp : p.Legal) {j : Nat} (hj : j < p.densDepth) :
    densAddr j < apertureSize := by
  obtain ⟨-, -, -, hdepth⟩ := hp
  simp only [densAddr, apertureSize]
  omega

/-! ## Commands and the RAMs, written by the host -/

theorem execute_of_decode {w : Word} {i : Instr} (h : decode w = .ok i) (s : State) : execute w s = exec i s := by
  simp only [execute, h]

theorem step_commandWrite {s : State} {w : Word} {rest : List BusEvent}
    (hp : s.pending = commandWrite s.params w :: rest) : step s = execute w { s with pending := rest } :=
  step_write (off := 0x10) (by decide) (by decide) hp

@[simp] theorem tableWord_toNat (w : Word) : tableWord 32 w.toNat = w := by
  rw [tableWord, Nat.mod_eq_of_lt w.isLt, BitVec.ofNat_toNat, BitVec.setWidth_eq]

/-- A GridSample write changes its own four bytes only. -/
theorem byte_setGs_outside (s : State) {a : Axis} {i : Byte} (e : GridSample) {x : Nat}
    (hx : x < gsAddr a i ∨ gsAddr a i + 4 ≤ x) : (s.setGs a i e).mem.byte x = s.mem.byte x := by
  rw [setGs_mem, Memory.byte_setHalf, if_neg (by omega), if_neg (by omega), Memory.byte_setHalf, if_neg (by omega),
    if_neg (by omega)]

/-- A density write changes its own two bytes only. -/
theorem byte_setDens_outside (s : State) {j : Nat} (v : U16) {x : Nat} (hx : x < densAddr j ∨ densAddr j + 2 ≤ x) :
    (s.setDens j v).mem.byte x = s.mem.byte x := by
  rw [setDens_mem, Memory.byte_setHalf, if_neg (by omega), if_neg (by omega)]

/-- Bits [31:16] of a word. -/
theorem extractLsb'_sixteen (v : Word) : v.extractLsb' 16 16 = (v >>> 16).setWidth 16 :=
  BitVec.eq_of_toNat_eq (by simp)

theorem hostWrite_gs (s : State) (v : Word) (a : Axis) (i : Byte) :
    hostWrite s v (.gs a i) = .next (s.setGs a i ⟨v.setWidth 16, (v >>> 16).setWidth 16⟩) := by
  rw [hostWrite_of_ne_cmd (sl := .gs a i) nofun, registerWrite, extractLsb'_sixteen,
    BitVec.setWidth_eq_extractLsb' (x := v) (by decide)]

theorem hostWrite_dens (s : State) (v : Word) (j : Nat) :
    hostWrite s v (.dens j) = .next (s.setDens j (v.setWidth 16)) := by
  rw [hostWrite_of_ne_cmd (sl := .dens j) nofun, registerWrite, BitVec.setWidth_eq_extractLsb' (by decide)]

/-! ## The obligations -/

/-- Settles O50: an offset is recovered from what stands at it. -/
theorem registerMapIsOneToOne : Obligations.RegisterMapIsOneToOne :=
  fun _ _ _ => slotAt_injective

/-- Settles O51: R41's list read as offsets of slots, both ways. -/
theorem reservedOffsetsAreThoseNotNamed : Obligations.ReservedOffsetsAreThoseNotNamed :=
  fun _ _ => slotAt_eq_reserved_iff

/-- Settles O52; CAPS and DEPTH are compared as numbers. -/
theorem identificationReportsTheParameters : Obligations.IdentificationReportsTheParameters := by
  refine ⟨by decide, by decide, rfl, fun p hp => ?_⟩
  have hcaps := toNat_capsWord hp
  have hdepth := toNat_depthWord hp
  obtain ⟨⟨-, hmaxOut⟩, -⟩ := hp
  refine ⟨?_, by rw [getLsbD_capsWord_eight, decide_eq_true_iff], ?_, ?_, hdepth⟩ <;>
    rw [hcaps] <;> split <;> omega

/-- Settles O53: an unwritten entry has no slot value, so the read draws. -/
theorem unwrittenReadsDrawAFreeValue : Obligations.UnwrittenReadsDrawAFreeValue := by
  refine fun s rest => ⟨fun a i hgs hp => ?_, fun j hlegal hj hdens hp => ?_⟩
  · have hnone : State.slotValue { s with pending := rest } (.gs a i) = none := slotValue_gs_eq_none hgs
    rw [step_read (gsAddr_mod a i) (gsAddr_lt_apertureSize a i) hp, slotAt_gs, hostRead_unwritten hnone]
    rfl
  · have hnone : State.slotValue { s with pending := rest } (.dens j) = none := slotValue_dens_eq_none hdens
    refine ⟨_, toNat_drawFor_dens (Config.freeHostRead s.draws) j, ?_⟩
    rw [step_read (densAddr_mod j) (densAddr_lt_apertureSize hlegal hj) hp, slotAt_dens hj, hostRead_unwritten hnone]

/-- Settles O6: CMD stands at offset 0x10, and a write there is Execute. -/
theorem stepRunsTheDecodedCommand : Obligations.StepRunsTheDecodedCommand := by
  refine fun s rest w i hdec => ⟨fun hp => ?_, ?_⟩
  · rw [step_commandWrite hp, execute_of_decode hdec]
  · rw [step_commandWrite (withFetchWord_pending s 32 w.toNat), tableWord_toNat, execute_of_decode hdec]
    rfl

/-- Settles O47: the write is performed on the slot at its offset, and each slot has its rule. -/
theorem hostWriteUpdatesTheRegister : Obligations.HostWriteUpdatesTheRegister := by
  intro s off v rest hlegal h4 hle hp
  have hstep := step_write h4 (by simp only [apertureSize]; omega) hp
  have hregister {r : Nat} (hoff : off = r) : step s = hostWrite { s with pending := rest } v (slotAt s.params r) :=
    hoff ▸ hstep
  refine ⟨fun hignored => ?_, hregister, hregister, hregister, hregister, hregister, hregister, hregister,
    fun a i hoff => ?_, fun j hj hoff => ?_⟩
  · rcases hignored with hoff | hoff | hoff | ⟨k, hk, rfl⟩ | hn
    · exact hregister hoff
    · exact hregister hoff
    · exact hregister hoff
    · rw [hstep, slotAt_out hlegal hk]; rfl
    · rw [hstep, (slotAt_eq_reserved_iff hlegal h4).2 hn]; rfl
  · rw [← gsAddr] at hoff
    subst hoff
    rw [slotAt_gs, hostWrite_gs] at hstep
    exact ⟨_, hstep, by rw [gs_setGs, if_pos ⟨rfl, rfl⟩], fun x hx => byte_setGs_outside _ _ hx, rfl⟩
  · rw [← densAddr] at hoff
    subst hoff
    rw [slotAt_dens hj, hostWrite_dens] at hstep
    exact ⟨_, hstep, by rw [dens_setDens, if_pos rfl], fun x hx => byte_setDens_outside _ _ hx, rfl⟩

end Sys2Proof.Machine
end

section
/-! Proofs about the outcomes of a command (10_state.md R24, R29, R33, R35, R36; 42_lut_access.md R73): what it leaves
in STATUS, what it may write, and where it stops at an entry that nothing has written. Each goes through `exec_next`,
`exec_cases` or `step_cases`. -/

namespace Sys2Proof.Machine

open Sys2Proof.Spec

/-! ## STATUS -/

theorem code_ne_zero (c : ErrorCode) : c.code ≠ 0 := by cases c <;> decide

/-- A completed command sets LAST_OK and leaves ERR and ECODE (R62). -/
theorem status_of_completed {i : Instr} {s t : State} (h : Completed i s t) :
    t.lastOk = true ∧ t.err = s.err ∧ t.ecode = s.ecode := by
  cases h <;> exact ⟨rfl, rfl, rfl⟩

/-- Raising an error keeps the code of an earlier one (R87). -/
theorem ecode_raiseError_of_err {s : State} (h : s.err = true) (c : ErrorCode) : (raiseError c s).ecode = s.ecode :=
  if_pos h

theorem ecode_raiseError_of_not_err {s : State} (h : s.err = false) (c : ErrorCode) : (raiseError c s).ecode = c.code :=
  if_neg (by rw [h]; nofun)

/-- While ERR is set, Execute leaves it set and ECODE as it is. -/
theorem execute_keeps_err {w : Word} {s t : State} (herr : s.err = true) (h : execute w s = .next t) :
    t.err = true ∧ t.ecode = s.ecode := by
  unfold execute at h
  split at h
  · cases h
    exact ⟨rfl, ecode_raiseError_of_err herr _⟩
  · rcases exec_next h with hc | ⟨c, rfl⟩
    · obtain ⟨-, hte, htc⟩ := status_of_completed hc
      exact ⟨hte.trans herr, htc⟩
    · exact ⟨rfl, ecode_raiseError_of_err herr c⟩

/-- A register write leaves ERR and ECODE, but for a STATUS write with bit 1 = 1. -/
theorem registerWrite_keeps_err (s : State) (v : Word) (sl : Slot) :
    ((registerWrite s v sl).err = s.err ∧ (registerWrite s v sl).ecode = s.ecode) ∨
    (sl = .status ∧ v.getLsbD 1 = true) := by
  cases sl with
  | status =>
    by_cases hv : v.getLsbD 1 = true
    · exact .inr ⟨rfl, hv⟩
    · rw [registerWrite, if_neg hv]; exact .inl ⟨rfl, rfl⟩
  | gridn a => cases a <;> exact .inl ⟨rfl, rfl⟩
  | _ => exact .inl ⟨rfl, rfl⟩

/-- STATUS stands at offset 0x0C only. -/
theorem eq_of_slotAt_status {p : Params} {off : Nat} (h4 : off % 4 = 0) (h : slotAt p off = .status) : off = 0x0C :=
  slotAt_injective h4 (by decide) (by rw [h]; nofun) h

/-! ## The configuration -/

theorem exec_interp_of_not_cfgOK {s : State} (h : ¬ CfgOK s) (r g b : Byte) :
    exec (.interp r g b) s = .next (raised 3 s) :=
  if_neg fun hc => h ((cfgOK_iff s).1 hc)

theorem exec_lookup_of_not_cfgOK {s : State} (h : ¬ CfgOK s) (x y z : Byte) :
    exec (.lookup x y z) s = .next (raised 3 s) :=
  if_neg fun hc => h ((cfgOK_iff s).1 hc)

theorem exec_build_of_not_gridOK {s : State} (h : ¬ GridOK s) : exec .build s = .next (raised 3 s) :=
  if_neg fun hg => h ((gridOK_iff s).1 hg)

@[simp] theorem gridN_atReset (p : Params) (a : Axis) : (State.atReset p).gridN a = 0 := by cases a <;> rfl

theorem not_gridOK_atReset (p : Params) : ¬ GridOK (State.atReset p) := by
  intro h
  obtain ⟨hpos, -⟩ := h .r
  rw [gridN_atReset] at hpos
  omega

/-- After reset every command but NOP raises BAD_CONFIG (R35). -/
theorem exec_atReset (p : Params) {i : Instr} (hi : i ≠ .nop) :
    exec i (State.atReset p) = .next (raised 3 (State.atReset p)) := by
  have hcfg : ¬ CfgOK (State.atReset p) := fun ⟨hgrid, _⟩ => not_gridOK_atReset p hgrid
  cases i with
  | nop => exact absurd rfl hi
  | interp r g b => exact exec_interp_of_not_cfgOK hcfg r g b
  | lookup x y z => exact exec_lookup_of_not_cfgOK hcfg x y z
  | build => exact exec_build_of_not_gridOK (not_gridOK_atReset p)

theorem statusWord_atReset (p : Params) : (State.atReset p).statusWord = 0 := by
  simp only [State.statusWord, State.atReset]
  decide

theorem outReg_atReset (p : Params) (k : Nat) : (State.atReset p).outReg k = 0 := by
  simp only [State.outReg, State.atReset, List.getD_eq_getElem?_getD, List.getElem?_replicate]
  split <;> rfl

/-! ## What a command writes -/

/-- OUT[NOUT ..] stays when NOUT values are written. -/
theorem outReg_writeOut_of_le {s : State} {vs : List U16} {k : Nat} (h : vs.length ≤ k) :
    (s.writeOut vs).outReg k = s.outReg k := by
  rw [outReg_writeOut, dif_neg (by omega)]

theorem vertexInGrid_iff (s : State) (x y z : Nat) :
    s.vertexInGrid x y z = true ↔ x < s.gridN .r ∧ y < s.gridN .g ∧ z < s.gridN .b := by
  simp only [State.vertexInGrid, Bool.and_eq_true, decide_eq_true_eq, and_assoc]

theorem exec_lookup_of_not_inGrid {s : State} (hc : s.cfgOK = true) {x y z : Byte}
    (h : s.vertexInGrid x.toNat y.toNat z.toNat ≠ true) : exec (.lookup x y z) s = .next (raised 1 s) := by
  rw [exec_lookup, execLookup, if_pos hc, if_neg h]
  rfl

/-! ## Where a command stops -/

theorem specUnwritten_iff (s : State) (en : RamEntry) : Unwritten s en ↔ s.Unwritten en := by cases en <;> rfl

theorem outputChannels_fault {f : Nat → Except Fault U16} {s : State} {k : Nat} {e : Fault} (hk : k < s.noutN)
    (he : f k = .error e) (hbefore : ∀ k', k' < k → ∃ v, f k' = .ok v) : outputChannels f s = .fault e := by
  rw [outputChannels, forChannels_first_error hk he hbefore]

/-- LOOKUP of a vertex in the grid stops at the first density that is unwritten. -/
theorem exec_lookup_fault {s : State} {x y z : Byte} {k : Nat} (hc : s.cfgOK = true)
    (hv : s.vertexInGrid x.toNat y.toNat z.toNat = true) (hk : k < s.noutN)
    (hd : s.dens (s.densIndex x.toNat y.toNat z.toNat k) = none)
    (hbefore : ∀ k', k' < k → (s.dens (s.densIndex x.toNat y.toNat z.toNat k')).isSome) :
    exec (.lookup x y z) s =
      .fault (.uninitRead (.lookup x y z) (.dens (s.densIndex x.toNat y.toNat z.toNat k))) := by
  rw [exec_lookup, execLookup, if_pos hc, if_pos hv]
  refine outputChannels_fault hk (densRead_error.2 ⟨hd, rfl⟩) fun k' hk' => ?_
  obtain ⟨v, hv⟩ := Option.isSome_iff_exists.1 (hbefore k' hk')
  exact ⟨v, density_ok.2 hv⟩

/-- The GridSample entries are read on axes R, G, B in turn (R74). -/
theorem fetchSamples_fault {cmd : Instr} {s : State} {r g b : Byte} :
    (s.gs .r r = none → fetchSamples cmd s r g b = .error (.uninitRead cmd (.gs .r r))) ∧
    ((s.gs .r r).isSome → s.gs .g g = none → fetchSamples cmd s r g b = .error (.uninitRead cmd (.gs .g g))) ∧
    ((s.gs .r r).isSome → (s.gs .g g).isSome → s.gs .b b = none →
      fetchSamples cmd s r g b = .error (.uninitRead cmd (.gs .b b))) := by
  simp only [Option.isSome_iff_exists]
  refine ⟨fun hr => ?_, fun ⟨er, hr⟩ hg => ?_, fun ⟨er, hr⟩ ⟨eg, hg⟩ hb => ?_⟩
  · simp only [fetchSamples, gsRead, hr]
  · simp only [fetchSamples, gsRead, hr, hg]
  · simp only [fetchSamples, gsRead, hr, hg, hb]

theorem exec_interp_fault_of_fetch {s : State} {r g b : Byte} {f : Fault} (hc : s.cfgOK = true)
    (hf : fetchSamples (.interp r g b) s r g b = .error f) : exec (.interp r g b) s = .fault f := by
  rw [exec_interp, execInterp, if_pos hc]
  simp only [hf]

/-! ## The cube of an INTERP -/

/-- The model's upper coordinate is R75's. -/
theorem upper_eq_upperOf (e : GridSample) : e.upper = upperOf e := by
  simp only [GridSample.upper, upperOf, ite_not]

theorem coord_eq_coordOf (e : GridSample) (sel : Bool) : e.coord sel = coordOf e sel := by
  rw [GridSample.coord, coordOf, upper_eq_upperOf, GridSample.lower]

theorem inGrid_iff_cubeInGrid (p : Samples) (s : State) : p.inGrid s = true ↔ CubeInGrid s p := by
  rw [Samples.inGrid_iff, upper_eq_upperOf, upper_eq_upperOf, upper_eq_upperOf]
  rfl

theorem cornerDensity_eq_densRead (cmd : Instr) (s : State) (p : Samples) (k : Nat) (c : Corner) :
    cornerDensity cmd s p k c = densRead cmd s (cornerIndex s p k c) := by
  rw [cornerDensity, density, cornerIndex, coord_eq_coordOf, coord_eq_coordOf, coord_eq_coordOf]

/-- A case reads the corners of its path (R79). -/
theorem coeffs_eq_readCorners {τ : Tetra} {o : Axis × Axis × Axis} (ho : caseOrder τ = some o) :
    ∃ p q t u f, (∀ d, coeffs d τ = readCorners d p q t u f) ∧ path o = [p, q, t, u] := by
  cases τ <;> cases ho <;> exact ⟨_, _, _, _, _, fun d => by rw [coeffs]; rfl, rfl⟩

/-- The corners of a case are read in order, up to the first that cannot be read. -/
theorem coeffs_first_error {d : Corner → Except Fault U16} {τ : Tetra} {o : Axis × Axis × Axis}
    {before after : List Corner} {c : Corner} {e : Fault} (ho : caseOrder τ = some o)
    (hpath : path o = before ++ c :: after) (hbefore : ∀ c' ∈ before, ∃ v, d c' = .ok v) (he : d c = .error e) :
    coeffs d τ = .error e := by
  obtain ⟨p, q, t, u, f, hcoeffs, hcorners⟩ := coeffs_eq_readCorners ho
  rw [hcoeffs]
  exact readCorners_first_error (hcorners ▸ hpath) hbefore he

/-- A case whose path can be read has its coefficients. -/
theorem coeffs_of_path {d : Corner → Except Fault U16} {τ : Tetra} {o : Axis × Axis × Axis}
    (ho : caseOrder τ = some o) (hpath : ∀ c ∈ path o, ∃ v, d c = .ok v) : ∃ cs, coeffs d τ = .ok cs := by
  obtain ⟨p, q, t, u, f, hcoeffs, hcorners⟩ := coeffs_eq_readCorners ho
  simp only [hcorners, List.forall_mem_cons] at hpath
  obtain ⟨⟨_, hp⟩, ⟨_, hq⟩, ⟨_, ht⟩, ⟨_, hu⟩, -⟩ := hpath
  exact ⟨_, (hcoeffs d).trans (readCorners_ok hp hq ht hu)⟩

theorem interpChannel_of_error {cmd : Instr} {s : State} {p : Samples} {k : Nat} {e : Fault}
    (h : coeffs (cornerDensity cmd s p k) (classify p.r.frac.toNat p.g.frac.toNat p.b.frac.toNat) = .error e) :
    interpChannel cmd s p k = .error e := by
  simp only [interpChannel, h]

/-- INTERP with its cube in the grid stops, channel by channel, at the first unwritten density along its case's path. -/
theorem exec_interp_fault {s : State} {r g b : Byte} {p : Samples} {o : Axis × Axis × Axis} {k : Nat}
    {before after : List Corner} {c : Corner} (hc : s.cfgOK = true) (hr : s.gs .r r = some p.r)
    (hg : s.gs .g g = some p.g) (hb : s.gs .b b = some p.b) (hp : p.inGrid s = true)
    (ho : caseOrder (classify p.r.frac.toNat p.g.frac.toNat p.b.frac.toNat) = some o) (hk : k < s.noutN)
    (hpath : path o = before ++ c :: after) (hd : s.dens (cornerIndex s p k c) = none)
    (hbefore : ∀ c' ∈ before, (s.dens (cornerIndex s p k c')).isSome)
    (hchannels : ∀ k', k' < k → ∀ c' ∈ path o, (s.dens (cornerIndex s p k' c')).isSome) :
    exec (.interp r g b) s = .fault (.uninitRead (.interp r g b) (.dens (cornerIndex s p k c))) := by
  have hread {k : Nat} {c : Corner} (h : (s.dens (cornerIndex s p k c)).isSome) :
      ∃ v, cornerDensity (.interp r g b) s p k c = .ok v := by
    obtain ⟨v, hv⟩ := Option.isSome_iff_exists.1 h
    exact ⟨v, by rw [cornerDensity_eq_densRead, densRead_ok, hv]⟩
  have hstop : cornerDensity (.interp r g b) s p k c =
      .error (.uninitRead (.interp r g b) (.dens (cornerIndex s p k c))) := by
    rw [cornerDensity_eq_densRead, densRead_error]
    exact ⟨hd, rfl⟩
  rw [exec_interp, execInterp, if_pos hc, fetchSamples_ok.2 ⟨hr, hg, hb⟩]
  simp only [if_pos hp]
  refine outputChannels_fault hk (interpChannel_of_error ?_) fun k' hk' => ?_
  · exact coeffs_first_error ho hpath (fun c' hc' => hread (hbefore c' hc')) hstop
  · obtain ⟨cs, hcs⟩ := coeffs_of_path ho fun c' hc' => hread (hchannels k' hk' c' hc')
    exact ⟨_, interpChannel_ok hcs⟩

/-! ## The obligations -/

/-- Settles O17: the command completed or raised an error. -/
theorem lastOkTellsCompletionFromError : Obligations.LastOkTellsCompletionFromError := by
  intro i s t h
  rcases exec_next h with hc | ⟨c, rfl⟩
  · exact .inl (status_of_completed hc)
  · refine .inr ⟨rfl, rfl, fun herr => ecode_raiseError_of_err herr c, fun herr => ?_⟩
    rw [ecode_raiseError_of_not_err herr]
    exact code_ne_zero c

/-- Settles O18, along the cases of a step. -/
theorem errIsSticky : Obligations.ErrIsSticky := by
  intro s t herr hstep
  rcases step_cases s with ⟨-, hidle⟩ | ⟨e, rest, hp, hcase⟩
  · rw [hidle] at hstep
    cases hstep
    exact .inl ⟨herr, rfl⟩
  rw [hp, List.head?_cons]
  rcases hcase with ⟨rfl, -⟩ | ⟨r, heq⟩ | ⟨sl, heq⟩ | ⟨off, v, h4, -, rfl, -, heq⟩ | ⟨v, -, heq⟩
  · exact .inr (.inl rfl)
  · rw [heq] at hstep
    cases hstep
  · obtain ⟨w, n, hread⟩ := hostRead_eq { s with pending := rest } sl
    rw [heq, hread] at hstep
    cases hstep
    exact .inl ⟨herr, rfl⟩
  · rw [heq] at hstep
    cases hstep
    rcases registerWrite_keeps_err { s with pending := rest } v (slotAt s.params off) with
      ⟨he, hcode⟩ | ⟨hs, hv⟩
    · exact .inl ⟨he.trans herr, hcode⟩
    · rw [eq_of_slotAt_status h4 hs]
      exact .inr (.inr ⟨v, rfl, hv⟩)
  · rw [heq] at hstep
    exact .inl (execute_keeps_err (s := { s with pending := rest }) herr hstep)

/-- Settles O21: every outcome of a command is one of `exec_cases`. -/
theorem onlyUnwrittenEntriesStopACommand : Obligations.OnlyUnwrittenEntriesStopACommand := by
  intro i s
  rcases exec_cases i s with ⟨t, h, -⟩ | ⟨c, h⟩ | ⟨en, hen, h⟩
  · exact .inl ⟨t, h⟩
  · exact .inl ⟨_, h⟩
  · exact .inr ⟨en, (specUnwritten_iff s en).2 hen, h⟩

/-- Settles O22: the GridSample reads come first, then the loop over the channels. -/
theorem unwrittenEntryStopsItsReader : Obligations.UnwrittenEntryStopsItsReader := by
  intro s x y z hcfg
  have hc : s.cfgOK = true := (cfgOK_iff s).2 hcfg
  obtain ⟨hstopR, hstopG, hstopB⟩ := fetchSamples_fault (cmd := .interp x y z) (s := s) (r := x) (g := y) (b := z)
  refine ⟨fun hr => ?_, fun hr hg => ?_, fun hr hg hb => ?_, ?_, ?_⟩
  · exact exec_interp_fault_of_fetch hc (hstopR hr)
  · exact exec_interp_fault_of_fetch hc (hstopG hr hg)
  · exact exec_interp_fault_of_fetch hc (hstopB hr hg hb)
  · intro p o k before after c hr hg hb hcube
    exact exec_interp_fault hc hr hg hb ((inGrid_iff_cubeInGrid p s).2 hcube)
  · intro k hx hy hz
    exact exec_lookup_fault hc ((vertexInGrid_iff s _ _ _).2 ⟨hx, hy, hz⟩)

/-- Settles O29: the completing case is `execLookup_next`, the checks before it raise. -/
theorem lookupReturnsTheVertex : Obligations.LookupReturnsTheVertex := by
  intro s x y z d
  refine ⟨fun hcfg hx hy hz hd => ?_, fun hcfg => exec_lookup_of_not_cfgOK hcfg x y z, fun hcfg hout => ?_⟩
  · have hv : s.vertexInGrid x.toNat y.toNat z.toNat = true := (vertexInGrid_iff s _ _ _).2 ⟨hx, hy, hz⟩
    have hreg (k : Nat) := outReg_map_range s d k
    refine ⟨_, execLookup_next ((cfgOK_iff s).2 hcfg) hv hd, fun k hk => ?_, fun k hk => ?_, rfl⟩
    · exact (hreg k).trans (if_pos hk)
    · exact (hreg k).trans (if_neg (by omega))
  · exact exec_lookup_of_not_inGrid ((cfgOK_iff s).2 hcfg) fun hv => hout ((vertexInGrid_iff s _ _ _).1 hv)

/-- Settles O43: an error writes STATUS alone, and a completed command what `Completed` says. -/
theorem commandsWriteOnlyWhatTheyMay : Obligations.CommandsWriteOnlyWhatTheyMay := by
  intro i s t h
  rcases exec_next h with (⟨rfl⟩ | ⟨rfl, -⟩ | ⟨vs, hlen, -, hi⟩) | ⟨c, rfl⟩
  · exact ⟨rfl, fun _ _ => rfl, fun _ => rfl, fun _ => rfl, fun _ => rfl, fun _ _ => rfl⟩
  · refine ⟨rfl, fun x hx => byte_buildSamples_outside s hx, dens_buildSamples s, ?_, fun _ => rfl, fun _ _ => rfl⟩
    rintro (hne | hok)
    · exact absurd rfl hne
    · cases hok
  · refine ⟨rfl, fun _ _ => rfl, fun _ => rfl, fun _ => rfl, ?_, fun k hk => outReg_writeOut_of_le (hlen ▸ hk)⟩
    rintro (rfl | rfl | hok)
    · simp at hi
    · simp at hi
    · cases hok
  · exact ⟨rfl, fun _ _ => rfl, fun _ => rfl, fun _ => rfl, fun _ => rfl, fun _ _ => rfl⟩

/-- Settles O10: the registers by computation, the commands by `exec_atReset`. -/
theorem resetLeavesTheStatedValues : Obligations.ResetLeavesTheStatedValues :=
  ⟨rfl, fun p => ⟨rfl, statusWord_atReset p, rfl, gridN_atReset p, ⟨List.length_replicate, outReg_atReset p⟩,
    fun _ _ => rfl, fun _ => rfl, rfl, rfl, rfl, fun _ => exec_atReset p⟩⟩

end Sys2Proof.Machine
end

section
/-! Proofs for 20_memory.md: which accesses are admitted (R39, R41, R42), what a host read returns (R41, R43), why a
repeated register write changes nothing (R40), and what a command's effect depends on (R44, R47, R49). -/

namespace Sys2Proof.Machine

open Sys2Proof.Spec

/-! ## Refused accesses -/

theorem accessOffset_outside {p : Params} {addr width : Nat}
    (h : addr < p.baseAddr ∨ p.baseAddr + apertureSize ≤ addr) :
    accessOffset p addr width = .error (.outsideAperture addr) := if_pos h

theorem accessOffset_subword {p : Params} {off width : Nat} (h : width ≠ 4 ∨ off % 4 ≠ 0) (hlt : off < apertureSize) :
    accessOffset p (p.baseAddr + off) width = .error (.busSubword (p.baseAddr + off) width) := by
  rw [accessOffset, if_neg (by omega), Nat.add_sub_cancel_left, if_neg (by tauto)]

/-- The step of a read or write that is not admitted is refused for the same reason. -/
theorem step_refused {s : State} {addr width : Nat} {v : Word} {rest : List BusEvent} {r : Refusal}
    (hp : s.pending = .read addr width :: rest ∨ s.pending = .write addr width v :: rest)
    (hr : accessOffset s.params addr width = .error r) : step s = .refused r := by
  rcases hp with hp | hp <;> rw [step_cons hp] <;> simp only [perform, hr]

/-- A write whose step answers a next state was admitted. -/
theorem admitted_of_step_write {s t : State} {off : Nat} {v : Word} {rest : List BusEvent}
    (hp : s.pending = .write (s.params.baseAddr + off) 4 v :: rest) (ht : step s = .next t) :
    off % 4 = 0 ∧ off < apertureSize := by
  cases hacc : accessOffset s.params (s.params.baseAddr + off) 4 with
  | error r =>
    rw [step_refused (.inr hp) hacc] at ht
    cases ht
  | ok off' =>
    obtain ⟨hoff, -, h4, hlt⟩ := accessOffset_ok.1 hacc
    obtain rfl : off = off' := by omega
    exact ⟨h4, hlt⟩

/-! ## The waiting events -/

theorem pending_of_exec {i : Instr} {s t : State} (h : exec i s = .next t) : t.pending = s.pending := by
  obtain ⟨hframe, -⟩ := commandsWriteOnlyWhatTheyMay i s t h
  rw [hframe]

theorem pending_of_execute {w : Word} {s t : State} (h : execute w s = .next t) : t.pending = s.pending := by
  unfold execute at h
  split at h
  · cases h; rfl
  · exact pending_of_exec h

/-! ## What a read returns -/

/-- A read returns the slot's value where it has one, and changes nothing of the block. -/
theorem hostRead_value (s : State) (sl : Slot) :
    ∃ v n, hostRead s sl = { s with results := v :: s.results, draws := n } ∧ ∀ w, s.slotValue sl = some w → v = w := by
  cases hsl : s.slotValue sl with
  | none => exact ⟨_, _, hostRead_unwritten hsl, nofun⟩
  | some v => exact ⟨v, s.draws, by simp only [hostRead, hsl], fun w hw => Option.some.inj hw⟩

/-- The waiting events are in no slot. -/
theorem slotValue_withPending (s : State) (q : List BusEvent) (sl : Slot) :
    State.slotValue { s with pending := q } sl = s.slotValue sl := by
  cases sl with
  | gridn a => cases a <;> rfl
  | _ => rfl

theorem toNat_ctrlWord (s : State) : s.ctrlWord.toNat = s.sat.toNat := by
  cases h : s.sat <;> simp [State.ctrlWord, h]

theorem toNat_statusWord (s : State) : s.statusWord.toNat = 16 * s.ecode.toNat + 2 * s.err.toNat + s.lastOk.toNat := by
  simp only [State.statusWord, toNat_append_eq_add, BitVec.toNat_ofBool, BitVec.ofNat_eq_ofNat, BitVec.toNat_ofNat]
  omega

theorem slotValue_gridn (s : State) (a : Axis) : ∃ w : Word, s.slotValue (.gridn a) = some w ∧ w.toNat = s.gridN a := by
  cases a <;> exact ⟨_, rfl, BitVec.toNat_setWidth_of_le (by decide)⟩

theorem toNat_gsWord (e : GridSample) :
    (e.frac ++ e.base : BitVec (16 + 16)).toNat = 65536 * e.frac.toNat + e.base.toNat := by
  rw [toNat_append_eq_add]; omega

/-! ## Writing what is already there -/

/-- Both bytes of a u16 that is written. -/
theorem Memory.half_eq_some {m : Memory} {a : Nat} {v : U16} (h : m.half a = some v) :
    m.byte a = some (lowByte v) ∧ m.byte (a + 1) = some (highByte v) := by
  unfold Memory.half at h
  split at h
  · rename_i lo hi hlo hhi
    obtain rfl := Option.some.inj h
    exact ⟨hlo.trans (congrArg some BitVec.extractLsb'_append_eq_right.symm),
      hhi.trans (congrArg some BitVec.extractLsb'_append_eq_left.symm)⟩
  · cases h

/-- In a canonical memory, writing the byte a cell holds changes nothing. -/
theorem Memory.setByte_eq_self {m : Memory} (hm : m.wf) {a : Nat} {v : Byte} (h : m.byte a = some v) :
    m.setByte a v = m := by
  induction m with
  | nil => cases h
  | cons c rest ih =>
    obtain ⟨k, u⟩ := c
    rw [Memory.wf, List.pairwise_cons] at hm
    obtain ⟨hfirst, hrest⟩ := hm
    rw [Memory.byte_cons] at h
    split at h
    · rename_i hk
      subst hk
      obtain rfl := Option.some.inj h
      rw [Memory.setByte, if_neg (by omega), if_pos rfl]
    · have hka : k < a := hfirst (a, v) (Memory.mem_of_byte h)
      rw [Memory.setByte, if_neg (by omega), if_neg (by omega), ih hrest h]

theorem Memory.setHalf_eq_self {m : Memory} (hm : m.wf) {a : Nat} {v : U16} (h : m.half a = some v) :
    m.setHalf a v = m := by
  obtain ⟨hlow, hhigh⟩ := Memory.half_eq_some h
  rw [Memory.setHalf, Memory.setByte_eq_self hm hlow, Memory.setByte_eq_self hm hhigh]

theorem setDens_eq_self {s : State} (hm : s.mem.wf) {j : Nat} {v : U16} (h : s.dens j = some v) :
    s.setDens j v = s := by
  rw [State.setDens, Memory.setHalf_eq_self hm h]

theorem setGs_eq_self {s : State} (hm : s.mem.wf) {a : Axis} {i : Byte} {e : GridSample} (h : s.gs a i = some e) :
    s.setGs a i e = s := by
  unfold State.gs at h
  split at h
  · rename_i base frac hbase hfrac
    obtain rfl := Option.some.inj h
    rw [State.setGs, Memory.setHalf_eq_self hm hbase, Memory.setHalf_eq_self hm hfrac]
  · cases h

/-- A register write made twice is the write made once. -/
theorem registerWrite_registerWrite {s : State} (hm : s.mem.wf) (v : Word) (sl : Slot) :
    registerWrite (registerWrite s v sl) v sl = registerWrite s v sl := by
  cases sl with
  | gridn a => cases a <;> rfl
  | status => by_cases hv : v.getLsbD 1 = true <;> simp only [registerWrite, hv] <;> rfl
  | gs a i =>
    exact setGs_eq_self (Memory.wf_setHalf (Memory.wf_setHalf hm _ _) _ _)
      ((gs_setGs s a a i i _).trans (if_pos ⟨rfl, rfl⟩))
  | dens j => exact setDens_eq_self (Memory.wf_setHalf hm _ _) ((dens_setDens s j j _).trans (if_pos rfl))
  | _ => rfl

/-- A register write neither looks at the waiting events nor changes them. -/
theorem registerWrite_withPending (s : State) (v : Word) (sl : Slot) (q : List BusEvent) :
    registerWrite { s with pending := q } v sl = { registerWrite s v sl with pending := q } := by
  cases sl with
  | gridn a => cases a <;> rfl
  | status => by_cases hv : v.getLsbD 1 = true <;> simp only [registerWrite, hv] <;> rfl
  | _ => rfl

theorem registerWrite_params (s : State) (v : Word) (sl : Slot) : (registerWrite s v sl).params = s.params := by
  cases sl with
  | gridn a => cases a <;> rfl
  | status => by_cases hv : v.getLsbD 1 = true <;> simp only [registerWrite, hv] <;> rfl
  | _ => rfl

theorem slotAt_ne_cmd {p : Params} {off : Nat} (h4 : off % 4 = 0) (hne : off ≠ 0x10) : slotAt p off ≠ .cmd :=
  fun h => hne (slotAt_injective h4 (by decide) (by rw [h]; nofun) h)

/-- The step of an admitted write to another register than CMD. -/
theorem step_registerWrite {s : State} {off : Nat} {v : Word} {rest : List BusEvent} (h4 : off % 4 = 0)
    (hlt : off < apertureSize) (hne : off ≠ 0x10)
    (hp : s.pending = .write (s.params.baseAddr + off) 4 v :: rest) :
    step s = .next { registerWrite s v (slotAt s.params off) with pending := rest } := by
  rw [step_write h4 hlt hp, hostWrite_of_ne_cmd (slotAt_ne_cmd h4 hne), registerWrite_withPending]

/-! ## What a command's effect depends on -/

/-- `s` with what no command chooses its effect by (STATUS, OUT and what the host holds) taken from `u` (R49). -/
def State.withUnread (s u : State) : State :=
  { s with
    lastOk := u.lastOk, err := u.err, ecode := u.ecode, out := u.out
    pending := u.pending, results := u.results, draws := u.draws }

/-- Two outcomes of a command, from `s` and from `s'`, are one effect on either state: the same operation, with the same
values, error or fault. -/
inductive SameEffect (i : Instr) (s s' : State) :
    Host.Outcome State Fault Refusal → Host.Outcome State Fault Refusal → Prop where
  | nop (h : i = .nop) : SameEffect i s s' (.next (complete s)) (.next (complete s'))
  | build (h : i = .build) : SameEffect i s s' (.next (complete (buildSamples s))) (.next (complete (buildSamples s')))
  | out (vs : List U16) (hl : vs.length = s.noutN) :
      SameEffect i s s' (.next (complete (s.writeOut vs))) (.next (complete (s'.writeOut vs)))
  | raise (c : ErrorCode) : SameEffect i s s' (.next (raiseError c s)) (.next (raiseError c s'))
  | stop (f : Fault) : SameEffect i s s' (.fault f) (.fault f)

section
variable (s u : State)

theorem gridOK_withUnread : (s.withUnread u).gridOK = s.gridOK := rfl

theorem cfgOK_withUnread : (s.withUnread u).cfgOK = s.cfgOK := rfl

theorem vertexInGrid_withUnread (x y z : Nat) : (s.withUnread u).vertexInGrid x y z = s.vertexInGrid x y z := rfl

theorem inGrid_withUnread (p : Samples) : p.inGrid (s.withUnread u) = p.inGrid s := rfl

theorem fetchSamples_withUnread (cmd : Instr) (r g b : Byte) :
    fetchSamples cmd (s.withUnread u) r g b = fetchSamples cmd s r g b := rfl

theorem density_withUnread (cmd : Instr) (x y z : Nat) :
    density cmd (s.withUnread u) x y z = density cmd s x y z := rfl

theorem interpChannel_withUnread (cmd : Instr) (p : Samples) :
    interpChannel cmd (s.withUnread u) p = interpChannel cmd s p := rfl

end

theorem outputChannels_sameEffect (i : Instr) (f : Nat → Except Fault U16) (s u : State) :
    SameEffect i s (s.withUnread u) (outputChannels f s) (outputChannels f (s.withUnread u)) := by
  have hnout : (s.withUnread u).noutN = s.noutN := rfl
  rw [outputChannels, outputChannels, hnout]
  cases hvs : forChannels f s.noutN with
  | error e => exact .stop e
  | ok vs => exact .out vs (forChannels_ok.1 hvs).1

/-- STATUS, OUT and what the host holds have no say in what a command does. -/
theorem exec_sameEffect (i : Instr) (s u : State) :
    SameEffect i s (s.withUnread u) (exec i s) (exec i (s.withUnread u)) := by
  cases i with
  | nop => exact .nop rfl
  | build =>
    rw [exec_build, exec_build, gridOK_withUnread]
    split
    · exact .build rfl
    · exact .raise .badConfig
  | lookup x y z =>
    rw [exec_lookup, exec_lookup, execLookup, execLookup, cfgOK_withUnread, vertexInGrid_withUnread, density_withUnread]
    split
    · split
      · exact outputChannels_sameEffect ..
      · exact .raise .gridAccessOutOfRange
    · exact .raise .badConfig
  | interp r g b =>
    rw [exec_interp, exec_interp, execInterp, execInterp, cfgOK_withUnread, fetchSamples_withUnread]
    split
    · cases fetchSamples (.interp r g b) s r g b with
      | error f => exact .stop f
      | ok p =>
        dsimp only
        rw [inGrid_withUnread, interpChannel_withUnread]
        split
        · exact outputChannels_sameEffect ..
        · exact .raise .gridAccessOutOfRange
    · exact .raise .badConfig

/-- What the host holds changes nothing of a command's next state and passes through it. -/
theorem exec_withHost {i : Instr} {s t : State} (q : List BusEvent) (res : List Word) (n : Nat)
    (h : exec i s = .next t) :
    exec i { s with pending := q, results := res, draws := n } =
      .next { t with pending := q, results := res, draws := n } := by
  have hsame : SameEffect i s { s with pending := q, results := res, draws := n } (exec i s)
      (exec i { s with pending := q, results := res, draws := n }) :=
    exec_sameEffect i s { s with pending := q, results := res, draws := n }
  rw [h] at hsame
  generalize exec i { s with pending := q, results := res, draws := n } = o at hsame ⊢
  cases hsame <;> rfl

/-! ## The obligations -/

/-- Settles O8, along the cases of a step. -/
theorem eachStepConsumesTheOldestEvent : Obligations.EachStepConsumesTheOldestEvent := by
  intro s t e rest hp ht
  rcases step_cases s with ⟨hnil, -⟩ | ⟨e', rest', hp', hcase⟩
  · rw [hp] at hnil
    cases hnil
  obtain ⟨rfl, rfl⟩ := List.cons.inj (hp.symm.trans hp')
  rcases hcase with ⟨-, heq⟩ | ⟨r, heq⟩ | ⟨sl, heq⟩ | ⟨off, v, -, -, -, -, heq⟩ | ⟨v, -, heq⟩ <;> rw [heq] at ht
  · cases ht; rfl
  · cases ht
  · obtain ⟨v, n, hread⟩ := hostRead_eq { s with pending := rest } sl
    cases ht
    rw [hread]
  · cases ht
    exact registerWrite_pending _ v _
  · exact pending_of_execute ht

/-- Settles O24: under GridOK the command is BUILD's writes and `complete`. -/
theorem buildFillsTheArrays : Obligations.BuildFillsTheArrays := by
  refine fun s => ⟨fun hgrid => ?_, exec_build_of_not_gridOK⟩
  exact ⟨complete (buildSamples s), if_pos ((gridOK_iff s).2 hgrid), gs_buildSamples s,
    fun _ => byte_buildSamples_outside s, rfl⟩

/-- Settles O44: two states that differ in nothing a command reads see the same effect. -/
theorem commandsDependOnlyOnTheBlock : Obligations.CommandsDependOnlyOnTheBlock := by
  refine fun i s => ⟨fun q res n t => exec_withHost q res n, fun s' t hs' hnop hbuild ht hok => ?_⟩
  have hunread : s.withUnread s' = s' := hs'.symm
  have hsame := exec_sameEffect i s s'
  rw [hunread, ht] at hsame
  generalize exec i s' = o at hsame ⊢
  cases hsame with
  | nop h => exact absurd h hnop
  | build h => exact absurd h hbuild
  | raise c => cases hok
  | out vs hl =>
    refine ⟨_, rfl, rfl, fun k hk => ?_⟩
    have hreg (u : State) : (complete (u.writeOut vs)).outReg k = vs[k] :=
      (outReg_writeOut u vs k).trans (dif_pos (hl ▸ hk))
    rw [hreg, hreg]

/-- Settles O46: the read returns the value of the slot at the offset, and each clause names that slot. -/
theorem hostReadReturnsTheRegister : Obligations.HostReadReturnsTheRegister := by
  intro s off rest hlegal h4 hoff hp
  obtain ⟨v, n, hread, hvalue⟩ := hostRead_value { s with pending := rest } (slotAt s.params off)
  have value {sl : Slot} {w : Word} (hsl : slotAt s.params off = sl) (hw : s.slotValue sl = some w) : v = w :=
    hvalue w (by rw [slotValue_withPending, hsl, hw])
  have gridn {a : Axis} (hsl : slotAt s.params off = .gridn a) : v.toNat = s.gridN a := by
    obtain ⟨w, hw, hnat⟩ := slotValue_gridn s a
    rw [value hsl hw, hnat]
  have hstep := step_read h4 (by simp only [apertureSize]; omega) hp
  refine ⟨v, n, by rw [hstep, hread], ?_, ?_, ?_, ?_, ?_, ?_, ?_, ?_, ?_, ?_, ?_, ?_, ?_, ?_⟩
  · rintro rfl; exact value (sl := .id) rfl rfl
  · rintro rfl; rw [value (sl := .caps) rfl rfl, toNat_capsWord hlegal]
  · rintro rfl; rw [value (sl := .ctrl) rfl rfl, toNat_ctrlWord]
  · rintro rfl; rw [value (sl := .status) rfl rfl, toNat_statusWord]
  · rintro rfl; exact value (sl := .cmd) rfl rfl
  · rintro rfl; rw [value (sl := .nout) rfl rfl, BitVec.toNat_setWidth_of_le (by decide), State.noutN]
  · rintro rfl; exact gridn rfl
  · rintro rfl; exact gridn rfl
  · rintro rfl; exact gridn rfl
  · rintro rfl; rw [value (sl := .depth) rfl rfl, toNat_depthWord hlegal]
  · rintro k hk rfl
    rw [value (slotAt_out hlegal hk) rfl, BitVec.toNat_setWidth_of_le (by decide)]
  · rintro a i e rfl he
    rw [value (slotAt_gs s.params a i) (congrArg (Option.map _) he), toNat_gsWord]
  · rintro j d hj rfl hd
    rw [value (slotAt_dens hj) (congrArg (Option.map _) hd), BitVec.toNat_setWidth_of_le (by decide)]
  · intro hn
    exact value ((slotAt_eq_reserved_iff hlegal h4).2 hn) rfl

/-- Settles O49: both steps are the same register write, and a register write is idempotent. -/
theorem repeatedWritesAreIdempotent : Obligations.RepeatedWritesAreIdempotent := by
  intro s t off v rest hm hne hp ht
  obtain ⟨h4, hlt⟩ := admitted_of_step_write hp ht
  rw [step_registerWrite h4 hlt hne hp, Host.Outcome.next.injEq, eq_comm] at ht
  have hparams : t.params = s.params := by rw [ht, registerWrite_params]
  have hpending : t.pending = .write (t.params.baseAddr + off) 4 v :: rest := by rw [hparams, ht]
  have hwrite : registerWrite t v (slotAt t.params off) = t := by
    rw [hparams, ht, registerWrite_withPending, registerWrite_registerWrite hm]
  rw [step_registerWrite h4 hlt hne hpending, hwrite]

/-- Settles O48: the access has no offset, so the step is refused with its reason. -/
theorem inadmissibleAccessesAreRefused : Obligations.InadmissibleAccessesAreRefused :=
  fun _ _ _ _ => ⟨fun _ hbad hlt hp => step_refused hp (accessOffset_subword hbad hlt),
    fun _ hout hp => step_refused hp (accessOffset_outside hout)⟩

end Sys2Proof.Machine
end

section
/-! Proofs for 30_encoding.md: the decoder and the encoder undo each other (R54, R57, R58, R60), the opcode map (R57),
the illegal words (R59), and what each line of a host program does, access by access (R60, R61). -/

namespace Sys2Proof

/-! ## The decoder and the encoder -/

/-- The decoder on a word given by its fields, RSV being 0 (R58). -/
theorem decode_packWord (op : BitVec 4) (a b c : Byte) :
    decode (packWord op a b c) =
      if op = 0 then decodeBare (packWord op a b c) .nop
      else if op = 1 then .ok (.interp a b c)
      else if op = 2 then .ok (.lookup a b c)
      else if op = 3 then decodeBare (packWord op a b c) .build
      else .error .noSuchOpcode := by
  obtain ⟨hop, hrsv, ha, hb, hc⟩ := fields_packWord op a b c
  rw [decode, hop, hrsv, ha, hb, hc, if_neg (not_not_intro rfl)]

theorem decode_encode (i : Instr) : decode (encode i) = .ok i := by
  cases i with
  | nop | build => decide
  | interp r g b => exact decode_packWord 1 r g b
  | lookup x y z => exact decode_packWord 2 x y z

/-- A word whose RSV, A, B and C are 0 is its OP alone. -/
theorem packWord_of_bare {w : Word} (hrsv : fieldRSV w = 0) (hlow : w.extractLsb' 0 24 = 0) :
    packWord (fieldOP w) 0 0 0 = w := by
  obtain ⟨ha, hb, hc⟩ := operands_zero w hlow
  have hw := packWord_fields w hrsv
  rwa [ha, hb, hc] at hw

theorem decodeBare_eq_ok_iff {w : Word} {i j : Instr} :
    decodeBare w i = .ok j ↔ w.extractLsb' 0 24 = 0 ∧ i = j := by
  unfold decodeBare
  split <;> simp_all

/-- Each branch of the decoder that answers a command has tested the fields which that command's word packs. -/
theorem encode_of_decode {w : Word} {i : Instr} (h : decode w = .ok i) : encode i = w := by
  rw [decode, ite_not] at h
  split_ifs at h with hrsv hnop hinterp hlookup hbuild
  · obtain ⟨hlow, rfl⟩ := decodeBare_eq_ok_iff.1 h
    rw [encode, ← hnop, packWord_of_bare hrsv hlow]
  · cases h
    rw [encode, ← hinterp, packWord_fields w hrsv]
  · cases h
    rw [encode, ← hlookup, packWord_fields w hrsv]
  · obtain ⟨hlow, rfl⟩ := decodeBare_eq_ok_iff.1 h
    rw [encode, ← hbuild, packWord_of_bare hrsv hlow]

theorem decode_eq_ok_iff {w : Word} {i : Instr} : decode w = .ok i ↔ encode i = w :=
  ⟨encode_of_decode, fun h => h ▸ decode_encode i⟩

/-! ## The opcode map -/

/-- A match with an 8-bit mask gives OP, with RSV = 0 (R57). -/
theorem fields_of_mask {w : Word} {op : BitVec 4} (h : w &&& 0xFF000000 = packWord op 0 0 0) :
    fieldOP w = op ∧ fieldRSV w = 0 := by
  obtain ⟨hop, hrsv, -⟩ := fields_packWord op 0 0 0
  rw [← h] at hop hrsv
  have topNibble {start : Nat} (hmask : BitVec.extractLsb' start 4 (0xFF000000 : Word) = BitVec.allOnes 4) :
      (w &&& 0xFF000000).extractLsb' start 4 = w.extractLsb' start 4 := by
    rw [BitVec.extractLsb'_and, hmask, BitVec.and_allOnes]
  exact ⟨(topNibble (by decide)).symm.trans hop, (topNibble (by decide)).symm.trans hrsv⟩

/-- A word that matches an 8-bit mask packs OP and its own operands. -/
theorem packWord_of_mask {w : Word} {op : BitVec 4} (h : w &&& 0xFF000000 = packWord op 0 0 0) :
    packWord op ((w >>> 16).setWidth 8) ((w >>> 8).setWidth 8) (w.setWidth 8) = w := by
  obtain ⟨hop, hrsv⟩ := fields_of_mask h
  have hA : (w >>> 16).setWidth 8 = fieldA w := BitVec.eq_of_toNat_eq (by simp [fieldA])
  have hB : (w >>> 8).setWidth 8 = fieldB w := BitVec.eq_of_toNat_eq (by simp [fieldB])
  have hC : w.setWidth 8 = fieldC w := BitVec.setWidth_eq_extractLsb' (by decide)
  rw [hA, hB, hC, ← hop, packWord_fields w hrsv]

/-- The word of a command matches its row of the opcode map (R57). -/
theorem exists_row_of_encode (i : Instr) : ∃ row ∈ opcodeMap, encode i &&& row.mask = row.pattern := by
  cases i with
  | nop => exact ⟨_, .head _, by decide⟩
  | interp r g b => exact ⟨_, .tail _ (.head _), (Laws.packWord_and_top 1 r g b).trans (by decide)⟩
  | lookup x y z => exact ⟨_, .tail _ (.tail _ (.head _)), (Laws.packWord_and_top 2 x y z).trans (by decide)⟩
  | build => exact ⟨_, .tail _ (.tail _ (.tail _ (.head _))), by decide⟩

/-- Which words are commands (R57, R59), by their fields. -/
theorem exists_decode_iff (w : Word) :
    (∃ i, decode w = .ok i) ↔
      fieldRSV w = 0 ∧
        (fieldOP w = 1 ∨ fieldOP w = 2 ∨ (fieldOP w = 0 ∨ fieldOP w = 3) ∧ w.extractLsb' 0 24 = 0) := by
  simp only [decode_eq_ok_iff]
  constructor
  · rintro ⟨i, rfl⟩
    cases i with
    | nop | build => decide
    | interp r g b =>
      obtain ⟨hop, hrsv, -⟩ := fields_packWord 1 r g b
      exact ⟨hrsv, .inl hop⟩
    | lookup x y z =>
      obtain ⟨hop, hrsv, -⟩ := fields_packWord 2 x y z
      exact ⟨hrsv, .inr (.inl hop)⟩
  · rintro ⟨hrsv, hop | hop | ⟨hop | hop, hlow⟩⟩
    · exact ⟨.interp (fieldA w) (fieldB w) (fieldC w), by rw [encode, ← hop, packWord_fields w hrsv]⟩
    · exact ⟨.lookup (fieldA w) (fieldB w) (fieldC w), by rw [encode, ← hop, packWord_fields w hrsv]⟩
    · exact ⟨.nop, by rw [encode, ← hop, packWord_of_bare hrsv hlow]⟩
    · exact ⟨.build, by rw [encode, ← hop, packWord_of_bare hrsv hlow]⟩

/-! ## The fields as numbers -/

theorem toNat_fieldOP (w : Word) : (fieldOP w).toNat = w.toNat / 2 ^ 28 := by
  rw [fieldOP, BitVec.extractLsb'_toNat, Nat.shiftRight_eq_div_pow]
  omega

theorem toNat_fieldRSV (w : Word) : (fieldRSV w).toNat = w.toNat / 2 ^ 24 % 16 := by
  rw [fieldRSV, BitVec.extractLsb'_toNat, Nat.shiftRight_eq_div_pow]

theorem toNat_operands (w : Word) : (w.extractLsb' 0 24).toNat = w.toNat % 2 ^ 24 := by
  rw [BitVec.extractLsb'_toNat, Nat.shiftRight_zero]

/-- The three kinds of illegal word (R59). -/
theorem decode_ne_ok_iff (w : Word) :
    (∀ i, decode w ≠ .ok i) ↔
      (w.toNat / 2 ^ 24 % 16 ≠ 0 ∨ 4 ≤ w.toNat / 2 ^ 28 ∨
        ((w.toNat / 2 ^ 28 = 0 ∨ w.toNat / 2 ^ 28 = 3) ∧ w.toNat % 2 ^ 24 ≠ 0)) := by
  simp only [← not_exists, exists_decode_iff, ← BitVec.toNat_inj, toNat_fieldOP, toNat_fieldRSV, toNat_operands,
    BitVec.ofNat_eq_ofNat, BitVec.toNat_ofNat]
  omega

end Sys2Proof

namespace Sys2Proof.Machine

open Sys2Proof.Spec

theorem execute_of_illegal {w : Word} (h : ∀ i, decode w ≠ .ok i) (s : State) : execute w s = .next (raised 2 s) := by
  unfold execute
  split
  · rfl
  · rename_i i hi
    exact absurd hi (h i)

/-! ## The word `ld.gs` writes (R61; log entry 19) -/

/-- Bits [31:16] are `frac`, no carry coming from a `base` of 16 bits. -/
theorem shiftRight_gsLineValue {base : Nat} (hbase : base < 65536) (frac : Nat) :
    (BitVec.ofNat 32 (frac * 2 ^ 16 + base) >>> 16).setWidth 16 = BitVec.ofNat 16 frac := by
  apply BitVec.eq_of_toNat_eq
  simp only [BitVec.toNat_setWidth, BitVec.toNat_ushiftRight, BitVec.toNat_ofNat, Nat.shiftRight_eq_div_pow]
  omega

/-- Bits [15:0] are `base`. -/
theorem setWidth_gsLineValue (base frac : Nat) :
    (BitVec.ofNat 32 (frac * 2 ^ 16 + base)).setWidth 16 = BitVec.ofNat 16 base := by
  apply BitVec.eq_of_toNat_eq
  simp only [BitVec.toNat_setWidth, BitVec.toNat_ofNat]
  omega

/-! ## The accesses of a host program's lines -/

theorem step_setGs {s : State} {a : Axis} {i : Byte} {v : Word} {rest : List BusEvent}
    (hp : s.pending = .write (s.params.baseAddr + gsAddr a i) 4 v :: rest) :
    step s = .next (State.setGs { s with pending := rest } a i ⟨v.setWidth 16, (v >>> 16).setWidth 16⟩) := by
  rw [step_write (gsAddr_mod a i) (gsAddr_lt_apertureSize a i) hp, slotAt_gs, hostWrite_gs]

theorem step_setDens {s : State} {j : Nat} {v : Word} {rest : List BusEvent} (hlegal : s.params.Legal)
    (hj : j < s.params.densDepth) (hp : s.pending = .write (s.params.baseAddr + densAddr j) 4 v :: rest) :
    step s = .next (State.setDens { s with pending := rest } j (v.setWidth 16)) := by
  rw [step_write (densAddr_mod j) (densAddr_lt_apertureSize hlegal hj) hp, slotAt_dens hj, hostWrite_dens]

/-- A read of a slot that has a value returns it and draws nothing. -/
theorem step_read_value {s : State} {off : Nat} {v : Word} {rest : List BusEvent} (h4 : off % 4 = 0)
    (hlt : off < apertureSize) (hv : s.slotValue (slotAt s.params off) = some v)
    (hp : s.pending = .read (s.params.baseAddr + off) 4 :: rest) :
    step s = .next { s with pending := rest, results := v :: s.results } := by
  rw [step_read h4 hlt hp]
  simp only [hostRead, slotValue_withPending, hv]

/-- `cfg`: four register writes, each field taking the value modulo its size (log entry 19). -/
theorem step_cfg {s : State} {nout nr ng nb : Nat} {rest : List BusEvent}
    (hp : s.pending = (HostLine.cfg nout nr ng nb).expand s.params ++ rest) :
    ∃ s1 s2 s3, step s = .next s1 ∧ step s1 = .next s2 ∧ step s2 = .next s3 ∧ step s3 = .next { s with
      pending := rest, nout := BitVec.ofNat 8 nout, gridR := BitVec.ofNat 9 nr, gridG := BitVec.ofNat 9 ng,
      gridB := BitVec.ofNat 9 nb } := by
  have h8 (v : Nat) : (BitVec.ofNat 32 v).setWidth 8 = BitVec.ofNat 8 v := BitVec.setWidth_ofNat_of_le (by decide) v
  have h9 (v : Nat) : (BitVec.ofNat 32 v).setWidth 9 = BitVec.ofNat 9 v := BitVec.setWidth_ofNat_of_le (by decide) v
  rw [← h8, ← h9, ← h9, ← h9]
  exact ⟨_, _, _, step_registerWrite (off := 0x14) (by decide) (by decide) (by decide) hp,
    step_registerWrite (off := 0x18) (by decide) (by decide) (by decide) rfl,
    step_registerWrite (off := 0x1C) (by decide) (by decide) (by decide) rfl,
    step_registerWrite (off := 0x20) (by decide) (by decide) (by decide) rfl⟩

theorem step_sat {s : State} {on : Bool} {rest : List BusEvent}
    (hp : s.pending = (HostLine.sat on).expand s.params ++ rest) :
    step s = .next { s with pending := rest, sat := on } := by
  have hbit : (BitVec.ofNat 32 (if on then 1 else 0)).getLsbD 0 = on := by cases on <;> rfl
  have hstep := step_registerWrite (off := 0x08) (by decide) (by decide) (by decide) hp
  rw [slotAt_register (by decide), registerAt, registerWrite, hbit] at hstep
  exact hstep

theorem step_clrerr {s : State} {rest : List BusEvent} (hp : s.pending = HostLine.clrerr.expand s.params ++ rest) :
    step s = .next { s with pending := rest, err := false, ecode := 0 } :=
  step_registerWrite (off := 0x0C) (by decide) (by decide) (by decide) hp

/-! ## The obligations -/

/-- Settles O1, by `decode_packWord`. -/
theorem decodeUndoesEncode : Obligations.DecodeUndoesEncode :=
  fun i _ => decode_encode i

/-- Settles O2, along the branches of the decoder. -/
theorem encodeUndoesDecode : Obligations.EncodeUndoesDecode :=
  fun _ _ => encode_of_decode

/-- Settles O3: a word that matches a row is the word of that row's command. -/
theorem decodeFollowsTheOpcodeMap : Obligations.DecodeFollowsTheOpcodeMap := by
  have fullMask (w : Word) : w &&& 0xFFFFFFFF = w := BitVec.and_allOnes
  refine fun w => ⟨fun h => ?_, fun h => ?_, fun h => ?_, fun h => ?_, ?_⟩
  · rw [fullMask] at h
    exact h ▸ decode_encode .nop
  · exact decode_eq_ok_iff.2 (packWord_of_mask (op := 1) h)
  · exact decode_eq_ok_iff.2 (packWord_of_mask (op := 2) h)
  · rw [fullMask] at h
    exact h ▸ decode_encode .build
  · rintro ⟨i, hi⟩
    exact encode_of_decode hi ▸ exists_row_of_encode i

/-- Settles O4; a LOOKUP outside the grid is `exec_lookup_of_not_inGrid`. -/
theorem illegalWordsRaiseIllegalCommand : Obligations.IllegalWordsRaiseIllegalCommand := by
  refine fun w s => ⟨decode_ne_ok_iff w, fun h => execute_of_illegal h s, fun x y z hdec hcfg hout => ?_⟩
  rw [execute_of_decode hdec]
  refine exec_lookup_of_not_inGrid ((cfgOK_iff s).2 hcfg) fun hv => ?_
  obtain ⟨hx, hy, hz⟩ := (vertexInGrid_iff s _ _ _).1 hv
  omega

/-- Settles O5: a word each. -/
theorem wordsOfTheSpecDecode : Obligations.WordsOfTheSpecDecode := by
  unfold Obligations.WordsOfTheSpecDecode
  decide

/-- Settles O9: each line's access is admitted, and what stands at its offset has its rule. -/
theorem hostLinesDoWhatTheySay : Obligations.HostLinesDoWhatTheySay := by
  refine fun s rest => ⟨fun _ _ => step_cons, fun _ => step_cons, fun i hp => ?command, fun _ _ _ _ => step_cfg,
    fun _ => step_sat, step_clrerr, fun j v hlegal hj hp => ?ldDens, fun a i base frac hbase _ hp => ?ldGs,
    fun k hlegal hk hp => ?rdOut, fun hp => ?rdStatus⟩
  case command => exact (step_commandWrite hp).trans (execute_of_decode (decode_encode i) _)
  case ldDens =>
    refine ⟨_, step_setDens hlegal hj hp, ?_, fun x hx => byte_setDens_outside _ _ hx, rfl⟩
    rw [dens_setDens, if_pos rfl, BitVec.setWidth_ofNat_of_le (by decide)]
  case ldGs =>
    refine ⟨_, step_setGs hp, ?_, fun x hx => byte_setGs_outside _ _ hx, rfl⟩
    rw [gs_setGs, if_pos ⟨rfl, rfl⟩, setWidth_gsLineValue, shiftRight_gsLineValue hbase]
  case rdOut =>
    have hvalue : s.slotValue (slotAt s.params (0x100 + 4 * k)) = some ((s.outReg k).setWidth 32) := by
      rw [slotAt_out hlegal hk, State.slotValue]
    have hlt : 0x100 + 4 * k < apertureSize := by
      obtain ⟨⟨-, hmax⟩, -⟩ := hlegal
      simp only [apertureSize]
      omega
    exact ⟨_, step_read_value (by omega) hlt hvalue hp, BitVec.toNat_setWidth_of_le (by decide)⟩
  case rdStatus =>
    exact ⟨s.statusWord, step_read_value (off := 0x0C) (by decide) (by decide) rfl hp, toNat_statusWord s⟩

end Sys2Proof.Machine
end

section
/-! Proofs for 40_control.md: what STATUS holds has no say in a later command (R63), and NOP with its one word (R64). -/

namespace Sys2Proof.Machine

/-! ## Commands under another STATUS -/

/-- `exec_sameEffect` for two states that differ in STATUS alone. -/
theorem exec_withStatus_sameEffect (i : Instr) (s : State) (l e : Bool) (c : BitVec 4) :
    SameEffect i s { s with lastOk := l, err := e, ecode := c } (exec i s)
      (exec i { s with lastOk := l, err := e, ecode := c }) :=
  exec_sameEffect i s { s with lastOk := l, err := e, ecode := c }

/-! ## Words with OP = 0 -/

theorem decode_eq_ok_nop_iff {w : Word} : decode w = .ok .nop ↔ w = 0 := by
  have hword : encode .nop = 0 := by decide
  rw [decode_eq_ok_iff, hword, eq_comm]

/-- With OP = 0, a bit that is set is one of RSV or of the operands, which NOP has not (R59). -/
theorem decode_ne_ok_of_op_zero {w : Word} (hop : w.toNat / 2 ^ 28 = 0) (hw : w ≠ 0) (i : Instr) : decode w ≠ .ok i := by
  have hpos : w.toNat ≠ 0 := fun h => hw (BitVec.eq_of_toNat_eq h)
  refine (decode_ne_ok_iff w).2 ?_ i
  omega

/-! ## The obligations -/

/-- Settles O19: each effect of a command, with the same values on both states, leaves states equal but for STATUS. -/
theorem earlierErrorsDoNotChangeLaterCommands : Obligations.EarlierErrorsDoNotChangeLaterCommands := by
  intro i s l e c
  have hsame := exec_withStatus_sameEffect i s l e c
  generalize exec i s = o, exec i { s with lastOk := l, err := e, ecode := c } = o' at hsame ⊢
  cases hsame with
  | nop | build | out | raise =>
    refine ⟨fun t ht => ?_, nofun⟩
    cases ht
    exact ⟨_, rfl, rfl, rfl⟩
  | stop f => exact ⟨nofun, fun _ => id⟩

/-- Settles O23: `complete` sets LAST_OK alone, and a word with OP = 0 is NOP's or illegal. -/
theorem nopSetsLastOkOnly : Obligations.NopSetsLastOkOnly :=
  ⟨exec_nop, ⟨complete State.reset, exec_nop _, by decide⟩, fun _ => decode_eq_ok_nop_iff,
    fun _ s hop hw => execute_of_illegal (decode_ne_ok_of_op_zero hop hw) s⟩

end Sys2Proof.Machine
end

section
/-! Proofs for 41_sampler.md: the position of an input byte on an axis and its halves (R67), the shape of the arrays BUILD
makes (R69), and INTERP on those arrays (R69, R76). -/

namespace Sys2Proof.Machine

open Sys2Proof.Spec

/-! ## The position of an input byte -/

/-- 0xFFFF is 255 * 257, so the factor 257 of p leaves the rounded quotient: with m = i * (n - 1), the position is 257 * m
plus m / 255 rounded, where the exact one is 65536 * m / 255 = 257 * m + m / 255. -/
theorem samplePos_eq (n i : Nat) : samplePos n i = 257 * (i * (n - 1)) + (i * (n - 1) + 127) / 255 := by
  simp only [samplePos, Nat.mul_right_comm i 257]
  omega

/-- m / 255 has no half-integer value, so no position is a tie. -/
theorem samplePos_nearest (n i : Nat) :
    2 * 255 * samplePos n i < 2 * (i * (n - 1) * 65536) + 255 ∧
      2 * (i * (n - 1) * 65536) < 2 * 255 * samplePos n i + 255 := by
  rw [samplePos_eq]
  omega

theorem samplePos_mono (n : Nat) {i j : Nat} (h : i ≤ j) : samplePos n i ≤ samplePos n j := by
  have hmul : i * (n - 1) ≤ j * (n - 1) := Nat.mul_le_mul_right _ h
  rw [samplePos_eq, samplePos_eq]
  omega

theorem samplePos_zero (n : Nat) : samplePos n 0 = 0 := by
  rw [samplePos_eq, Nat.zero_mul]

theorem samplePos_last (n : Nat) : samplePos n 255 = 65536 * (n - 1) := by
  rw [samplePos_eq]
  omega

theorem samplePos_le (n : Nat) (i : Byte) : samplePos n i.toNat ≤ 65536 * (n - 1) := by
  have hi : i.toNat ≤ 255 := Nat.le_of_lt_succ i.isLt
  exact (samplePos_mono n hi).trans_eq (samplePos_last n)

/-! ## The halves of a position -/

/-- No position needs more than 32 bits, so base and frac together are the position. -/
theorem sample_halves {n : Nat} (hn : n ≤ 256) (i : Byte) :
    65536 * (sample n i).base.toNat + (sample n i).frac.toNat = samplePos n i.toNat := by
  have hle : samplePos n i.toNat ≤ 65536 * (n - 1) := samplePos_le n i
  simp only [sample, BitVec.toNat_ofNat]
  omega

theorem sample_base_mono {n : Nat} (hn : n ≤ 256) {i j : Byte} (h : i.toNat ≤ j.toNat) :
    (sample n i).base.toNat ≤ (sample n j).base.toNat := by
  have hle : samplePos n i.toNat ≤ samplePos n j.toNat := samplePos_mono n h
  rw [← sample_halves hn, ← sample_halves hn] at hle
  have hfrac : (sample n j).frac.toNat < 65536 := (sample n j).frac.isLt
  omega

theorem sample_zero (n : Nat) : sample n 0 = ⟨0, 0⟩ := by
  have hpos : samplePos n (0 : Byte).toNat = 0 := samplePos_zero n
  simp only [sample, hpos]
  rfl

theorem sample_last (n : Nat) : sample n 255 = ⟨BitVec.ofNat 16 (n - 1), 0⟩ := by
  have hpos : samplePos n (255 : Byte).toNat = 65536 * (n - 1) := samplePos_last n
  have hbase : 65536 * (n - 1) / 2 ^ 16 = n - 1 := Nat.mul_div_cancel_left _ (by decide)
  have hfrac : BitVec.ofNat 16 (65536 * (n - 1)) = 0 := BitVec.eq_of_toNat_eq (by simp)
  rw [sample, hpos, hbase, hfrac]

/-- The upper coordinate of a built entry is at most the top vertex, since its position is. -/
theorem upperOf_sample_le {n : Nat} (hn : n ≤ 256) (i : Byte) : upperOf (sample n i) ≤ n - 1 := by
  have hle : samplePos n i.toNat ≤ 65536 * (n - 1) := samplePos_le n i
  rw [← sample_halves hn] at hle
  rw [upperOf]
  split
  · next hne =>
    have hpos : (sample n i).frac.toNat ≠ 0 := fun h => hne (BitVec.eq_of_toNat_eq h)
    omega
  · omega

theorem base_le_upperOf (e : GridSample) : e.base.toNat ≤ upperOf e := Nat.le_add_right _ _

theorem frac_eq_zero_of_upperOf_le {e : GridSample} (h : upperOf e ≤ e.base.toNat) : e.frac = 0 := by
  by_contra hne
  rw [upperOf, if_pos hne] at h
  omega

/-! ## INTERP on built arrays -/

theorem sample_coords_lt {n : Nat} (hpos : 1 ≤ n) (hn : n ≤ 256) (i : Byte) :
    (sample n i).base.toNat < n ∧ upperOf (sample n i) < n := by
  have hupper : upperOf (sample n i) ≤ n - 1 := upperOf_sample_le hn i
  have hbase : (sample n i).base.toNat ≤ upperOf (sample n i) := base_le_upperOf _
  omega

/-- INTERP with its cube in the grid raises nothing: a next state comes from writing OUT and completing. -/
theorem exec_interp_completes {s t : State} {r g b : Byte} {p : Samples} (hc : s.cfgOK = true)
    (hr : s.gs .r r = some p.r) (hg : s.gs .g g = some p.g) (hb : s.gs .b b = some p.b) (hp : CubeInGrid s p)
    (h : exec (.interp r g b) s = .next t) : ∃ vs, t = complete (s.writeOut vs) := by
  rw [exec_interp, execInterp, if_pos hc, fetchSamples_ok.2 ⟨hr, hg, hb⟩] at h
  simp only [if_pos ((inGrid_iff_cubeInGrid p s).2 hp)] at h
  rcases outputChannels_cases (interpChannel (.interp r g b) s p) s with ⟨vs, -, -, hnext⟩ | ⟨k, e, -, -, hfault⟩
  · rw [hnext] at h
    cases h
    exact ⟨vs, rfl⟩
  · rw [hfault] at h
    cases h

/-! ## The obligations -/

/-- Settles O25: `sample_halves` names the position, whose factor (i << 8) | i is 257 * i. -/
theorem sampleIsTheNearestPosition : Obligations.SampleIsTheNearestPosition := by
  intro n i _ hn
  have hdup : i.toNat <<< 8 ||| i.toNat = i.toNat * 257 := by
    rw [← Nat.shiftLeft_add_eq_or_of_lt i.isLt, Nat.shiftLeft_eq]
    omega
  have hmul : i.toNat * (n - 1) ≤ 255 * 255 := Nat.mul_le_mul (Nat.le_of_lt_succ i.isLt) (by omega)
  have hp : i.toNat * 257 * (n - 1) ≤ 16711425 := by
    rw [Nat.mul_right_comm]
    omega
  have hv : samplePos n i.toNat ≤ 0x00FF0000 := (samplePos_le n i).trans (by omega)
  simp only [sample_halves hn, hdup]
  exact ⟨rfl, hp, by omega, hv, samplePos_nearest n i.toNat⟩

/-- Settles O26: positions grow with the byte, from vertex 0 to vertex n - 1. -/
theorem builtArraysAreMonotoneAndInRange : Obligations.BuiltArraysAreMonotoneAndInRange := by
  intro n i j _ hn
  have hupper : upperOf (sample n i) ≤ n - 1 := upperOf_sample_le hn i
  refine ⟨sample_base_mono hn, sample_zero n, sample_last n, (base_le_upperOf _).trans hupper, fun hbase => ?_⟩
  exact frac_eq_zero_of_upperOf_le (hupper.trans_eq hbase.symm)

/-- Settles O27: the entries INTERP reads are those BUILD wrote, whose coordinates lie in the grid. -/
theorem interpAfterBuildNeverLeavesTheGrid : Obligations.InterpAfterBuildNeverLeavesTheGrid := by
  intro s t u r g b hlegal hcfg hbuild hinterp
  obtain ⟨-, ⟨-, hmax⟩, -⟩ := hlegal
  have hc : s.cfgOK = true := (cfgOK_iff s).2 hcfg
  obtain ⟨hgrid, -, -⟩ := hcfg
  rw [exec_build, if_pos ((gridOK_iff s).2 hgrid)] at hbuild
  cases hbuild
  have hcoords (a : Axis) (i : Byte) :
      (sample (s.gridN a) i).base.toNat < s.gridN a ∧ upperOf (sample (s.gridN a) i) < s.gridN a :=
    sample_coords_lt (hgrid a).1 ((hgrid a).2.trans hmax) i
  obtain ⟨vs, rfl⟩ := exec_interp_completes (s := complete (buildSamples s))
    (p := ⟨sample (s.gridN .r) r, sample (s.gridN .g) g, sample (s.gridN .b) b⟩) hc
    (gs_buildSamples s .r r) (gs_buildSamples s .g g) (gs_buildSamples s .b b)
    ⟨hcoords .r r, hcoords .g g, hcoords .b b⟩ hinterp
  exact ⟨rfl, rfl⟩

end Sys2Proof.Machine
end

section
/-! Proofs for 42_lut_access.md: the density index is a mixed-radix numeral (R71) with digits x, y, z, k, so it counts the
grid's channels without a gap or a repetition; without CfgOK neither LOOKUP nor INTERP comes to its operands (R73, R83,
R88). -/

namespace Sys2Proof.Machine

open Sys2Proof.Spec

/-! ## One digit of a mixed-radix numeral -/

theorem mul_add_digit_lt {m n a b : Nat} (ha : a < m) (hb : b < n) : a * n + b < m * n := by
  rw [Nat.mul_comm a n]
  exact Nat.mul_add_lt_mul_of_lt_of_lt ha hb

theorem mul_add_digit_div {n b : Nat} (hb : b < n) (a : Nat) : (a * n + b) / n = a := by
  rw [Nat.mul_comm, Nat.mul_add_div (Nat.zero_lt_of_lt hb), Nat.div_eq_of_lt hb, Nat.add_zero]

theorem mul_add_digit_inj {n a b a' b' : Nat} (hb : b < n) (hb' : b' < n) (h : a * n + b = a' * n + b') :
    a = a' ∧ b = b' := by
  have ha : a = a' := by rw [← mul_add_digit_div hb a, h, mul_add_digit_div hb' a']
  subst ha
  exact ⟨rfl, Nat.add_left_cancel h⟩

theorem exists_mul_add_digit {m n j : Nat} (h : j < m * n) : ∃ a b, a < m ∧ b < n ∧ a * n + b = j :=
  have hn : 0 < n := Nat.pos_of_mul_pos_left (Nat.zero_lt_of_lt h)
  ⟨j / n, j % n, Nat.div_lt_of_lt_mul (Nat.mul_comm m n ▸ h), Nat.mod_lt j hn, Nat.div_add_mod' j n⟩

/-! ## The density index -/

/-- The table's size, with the axes and the channel in the order of `State.densIndex`. -/
theorem densCount_eq (s : State) :
    s.noutN * s.gridN .r * s.gridN .g * s.gridN .b = s.gridN .r * s.gridN .g * s.gridN .b * s.noutN := by
  ring

theorem densIndex_lt {s : State} {x y z k : Nat} (hx : x < s.gridN .r) (hy : y < s.gridN .g) (hz : z < s.gridN .b)
    (hk : k < s.noutN) : s.densIndex x y z k < s.noutN * s.gridN .r * s.gridN .g * s.gridN .b := by
  rw [densCount_eq]
  exact mul_add_digit_lt (mul_add_digit_lt (mul_add_digit_lt hx hy) hz) hk

theorem densIndex_lt_densDepth {s : State} (hcfg : CfgOK s) {x y z k : Nat} (hx : x < s.gridN .r) (hy : y < s.gridN .g)
    (hz : z < s.gridN .b) (hk : k < s.noutN) : s.densIndex x y z k < s.params.densDepth := by
  obtain ⟨-, -, hdepth⟩ := hcfg
  exact (densIndex_lt hx hy hz hk).trans_le hdepth

/-- Equal indices have equal digits, from the channel up; x is the leading digit and needs no bound. -/
theorem densIndex_inj {s : State} {x y z k x' y' z' k' : Nat} (hy : y < s.gridN .g) (hz : z < s.gridN .b)
    (hk : k < s.noutN) (hy' : y' < s.gridN .g) (hz' : z' < s.gridN .b) (hk' : k' < s.noutN)
    (h : s.densIndex x y z k = s.densIndex x' y' z' k') : x = x' ∧ y = y' ∧ z = z' ∧ k = k' := by
  obtain ⟨hvertex, rfl⟩ := mul_add_digit_inj hk hk' h
  obtain ⟨hplane, rfl⟩ := mul_add_digit_inj hz hz' hvertex
  obtain ⟨rfl, rfl⟩ := mul_add_digit_inj hy hy' hplane
  exact ⟨rfl, rfl, rfl, rfl⟩

theorem exists_densIndex {s : State} {j : Nat} (h : j < s.noutN * s.gridN .r * s.gridN .g * s.gridN .b) :
    ∃ x y z k, x < s.gridN .r ∧ y < s.gridN .g ∧ z < s.gridN .b ∧ k < s.noutN ∧ s.densIndex x y z k = j := by
  rw [densCount_eq] at h
  obtain ⟨_, k, hvertex, hk, rfl⟩ := exists_mul_add_digit h
  obtain ⟨_, z, hplane, hz, rfl⟩ := exists_mul_add_digit hvertex
  obtain ⟨x, y, hx, hy, rfl⟩ := exists_mul_add_digit hplane
  exact ⟨x, y, z, k, hx, hy, hz, hk, rfl⟩

/-! ## The obligations -/

/-- Settles O28: the index's bound, its digits, and the digits of any index below the bound. -/
theorem densIndexIsOneToOneOnto : Obligations.DensIndexIsOneToOneOnto := fun _ =>
  ⟨fun _ _ _ _ => rfl,
    fun _ _ _ _ hx hy hz hk => ⟨densIndex_lt hx hy hz hk, fun hcfg => densIndex_lt_densDepth hcfg hx hy hz hk⟩,
    fun _ _ _ _ _ _ _ _ => densIndex_inj,
    fun _ => exists_densIndex⟩

/-- Settles O20: both commands test CfgOK first. -/
theorem badConfigComesBeforeRange : Obligations.BadConfigComesBeforeRange := fun _ x y z hcfg =>
  ⟨exec_lookup_of_not_cfgOK hcfg x y z, exec_interp_of_not_cfgOK hcfg x y z⟩

end Sys2Proof.Machine
end

section
/-! Proofs for 43_interp.md: the case and its path (R77 to R79), the arithmetic of a channel (R80, R81), the whole
command (R74 to R76, R82, R83), and what follows for the result (R84, R85). -/

namespace Sys2Proof.Machine

open Sys2Proof.Spec

/-! ## The case and its path -/

/-- NONE is never taken: one of the six conditions holds (R78). -/
theorem classify_ne_noCase (fr fg fb : Nat) : classify fr fg fb ≠ .noCase := by
  intro h
  unfold classify at h
  split_ifs at h
  omega

/-- `classify` tests the conditions that name the cases (R77). -/
theorem classify_eq_ite (fr fg fb : Nat) : classify fr fg fb =
    if Holds (.r, .g, .b) fr fg fb then .rgb else if Holds (.r, .b, .g) fr fg fb then .rbg
    else if Holds (.b, .r, .g) fr fg fb then .brg else if Holds (.g, .r, .b) fr fg fb then .grb
    else if Holds (.g, .b, .r) fr fg fb then .gbr else if Holds (.b, .g, .r) fr fg fb then .bgr else .noCase := rfl

theorem exists_caseOrder_classify (fr fg fb : Nat) : ∃ o, caseOrder (classify fr fg fb) = some o := by
  have hne := classify_ne_noCase fr fg fb
  generalize classify fr fg fb = τ at hne ⊢
  cases τ
  case noCase => exact absurd rfl hne
  all_goals exact ⟨_, rfl⟩

/-- The condition that names the case of three fractions holds of them. -/
theorem holds_of_caseOrder_classify {fr fg fb : Nat} {o : Axis × Axis × Axis}
    (ho : caseOrder (classify fr fg fb) = some o) : Holds o fr fg fb := by
  rw [classify_eq_ite] at ho
  split_ifs at ho <;> cases ho <;> assumption

/-- A search by a decidable condition, one entry at a time. -/
theorem find?_decide_cons {α : Type} (P : α → Prop) [DecidablePred P] (a : α) (l : List α) :
    (a :: l).find? (fun c => decide (P c)) = if P a then some a else l.find? (fun c => decide (P c)) := by
  by_cases h : P a <;> simp only [List.find?_cons, h, decide_true, decide_false, if_true, if_false]

/-- The corner after the first step of a case's path. -/
def afterFirst (o : Axis × Axis × Axis) : Corner := stepUp lowCorner o.1

/-- The corner after the second step of a case's path. -/
def afterSecond (o : Axis × Axis × Axis) : Corner := stepUp (afterFirst o) o.2.1

def highCorner : Corner := ⟨true, true, true⟩

section
variable {τ : Tetra} {o : Axis × Axis × Axis} (ho : caseOrder τ = some o)
include ho

/-- A case's order names every axis. -/
theorem axis_of_case (a : Axis) : a = o.1 ∨ a = o.2.1 ∨ a = o.2.2 := by
  cases τ <;> cases ho <;> cases a <;> simp

theorem path_of_case : path o = [lowCorner, afterFirst o, afterSecond o, highCorner] := by
  cases τ <;> cases ho <;> rfl

/-- The corner before the last step is the one opposite to that step's axis. -/
theorem afterSecond_of_case : afterSecond o = ⟨o.2.2 ≠ .r, o.2.2 ≠ .g, o.2.2 ≠ .b⟩ := by
  cases τ <;> cases ho <;> rfl

/-- The table of R79 is the path rule. -/
theorem coeffs_eq_pathCoeffs {d : Corner → Except Fault U16} {D : Corner → U16} (hd : ∀ c ∈ path o, d c = .ok (D c)) :
    coeffs d τ = .ok (pathCoeffs D o) := by
  simp only [path, List.forall_mem_cons] at hd
  obtain ⟨h0, h1, h2, h3, -⟩ := hd
  cases τ <;> cases ho <;> rw [coeffs] <;> exact (readCorners_ok h0 h1 h2 h3).trans rfl

/-- The weighted sum counts each corner of the path after the first by the drop of the fraction behind it. -/
theorem weightedSum_pathCoeffs (D : Corner → U16) (fr fg fb : Nat) :
    weightedSum (pathCoeffs D o) fr fg fb =
      (fracOf fr fg fb o.1 - fracOf fr fg fb o.2.1) * ((D (afterFirst o)).toNat - (D lowCorner).toNat) +
      (fracOf fr fg fb o.2.1 - fracOf fr fg fb o.2.2) * ((D (afterSecond o)).toNat - (D lowCorner).toNat) +
      fracOf fr fg fb o.2.2 * ((D highCorner).toNat - (D lowCorner).toNat) := by
  cases τ <;> cases ho <;>
    simp only [weightedSum, pathCoeffs, delta, fracOf, afterFirst, afterSecond, highCorner, stepUp, lowCorner,
      reduceCtorEq, if_true, if_false] <;> ring

theorem fracOf_le_first {fr fg fb : Nat} (h : Holds o fr fg fb) (a : Axis) :
    fracOf fr fg fb a ≤ fracOf fr fg fb o.1 := by
  obtain ⟨h12, h23⟩ := h
  rcases axis_of_case ho a with rfl | rfl | rfl
  exacts [le_rfl, h12, h23.trans h12]

theorem last_le_fracOf {fr fg fb : Nat} (h : Holds o fr fg fb) (a : Axis) :
    fracOf fr fg fb o.2.2 ≤ fracOf fr fg fb a := by
  obtain ⟨h12, h23⟩ := h
  rcases axis_of_case ho a with rfl | rfl | rfl
  exacts [h23.trans h12, h23, le_rfl]

theorem fracOf_le_second {fr fg fb : Nat} (h : Holds o fr fg fb) {a : Axis} (ha : a ≠ o.1) :
    fracOf fr fg fb a ≤ fracOf fr fg fb o.2.1 := by
  obtain ⟨-, h23⟩ := h
  rcases axis_of_case ho a with rfl | rfl | rfl
  exacts [absurd rfl ha, le_rfl, h23]

theorem second_le_fracOf {fr fg fb : Nat} (h : Holds o fr fg fb) {a : Axis} (ha : a ≠ o.2.2) :
    fracOf fr fg fb o.2.1 ≤ fracOf fr fg fb a := by
  obtain ⟨h12, -⟩ := h
  rcases axis_of_case ho a with rfl | rfl | rfl
  exacts [h12, le_rfl, absurd rfl ha]

theorem sum_fracOf (fr fg fb : Nat) :
    fracOf fr fg fb o.1 + fracOf fr fg fb o.2.1 + fracOf fr fg fb o.2.2 = fr + fg + fb := by
  cases τ <;> cases ho <;> simp only [fracOf] <;> omega

end

/-! ## The arithmetic of a channel -/

theorem wrap32_eq_of_dvd {x v : Int} (hv : IsS32 v) (hdvd : (2 ^ 32 : Int) ∣ v - x) : wrap32 x = v := by
  unfold IsS32 at hv
  unfold wrap32
  omega

theorem wrap32_of_isS32 {v : Int} (hv : IsS32 v) : wrap32 v = v :=
  wrap32_eq_of_dvd hv (by simp)

theorem fdiv_65536 (v : Int) : Int.fdiv v 65536 = asr v 16 :=
  Int.fdiv_eq_ediv_of_nonneg v (by decide)

theorem toNat_convert_false (v : Int) : ((convert false v).toNat : Int) = v % 65536 := by
  rw [convert, if_neg Bool.false_ne_true, trunc16, BitVec.toNat_ofInt]
  omega

theorem toNat_convert_true (v : Int) : ((convert true v).toNat : Int) = max 0 (min v 65535) := by
  simp only [convert, clamp, BitVec.toNat_ofInt, if_true]
  split_ifs <;> omega

/-- In the range of u16 both conversions are exact (R81). -/
theorem toNat_convert_of_u16 (sat : Bool) {v : Int} (hlo : 0 ≤ v) (hhi : v ≤ 65535) :
    ((convert sat v).toNat : Int) = v := by
  cases sat
  · rw [toNat_convert_false]; omega
  · rw [toNat_convert_true]; omega

@[simp] theorem convert_toNat (sat : Bool) (d : U16) : convert sat d.toNat = d := by
  have hd := d.isLt
  apply BitVec.eq_of_toNat_eq
  have := toNat_convert_of_u16 sat (v := d.toNat) (by omega) (by omega)
  omega

theorem convert_false_eq_of_dvd {u v : Int} (h : (65536 : Int) ∣ v - u) : convert false v = convert false u := by
  apply BitVec.eq_of_toNat_eq
  have hv := toNat_convert_false v
  have hu := toNat_convert_false u
  omega

theorem convert_false_add (u m : Int) : convert false (u + m) = convert false u + BitVec.ofInt 16 m :=
  BitVec.ofInt_add u m

/-- WRAP32 agrees with WIDE where no sum leaves s32 (R85's band). -/
theorem combine_wrap32_eq_wide {c : Coeffs} {fr fg fb : Nat} (h0 : 0 ≤ c.c0) (h1 : c.c0 ≤ 65535)
    (hlo : -0x7FFE0000 ≤ weightedSum c fr fg fb) (hhi : weightedSum c fr fg fb ≤ 0x7FFE0000) :
    combine .wrap32 c fr fg fb = combine .wide c fr fg fb := by
  unfold combine
  generalize hrest : weightedSum c fr fg fb + roundBias = rest
  unfold roundBias at hrest
  have hrestS : IsS32 rest := by unfold IsS32; omega
  have htS : IsS32 (rest + asr rest 16) := by unfold IsS32 asr; omega
  have hvS : IsS32 (c.c0 + asr (rest + asr rest 16) 16) := by unfold IsS32 asr; omega
  simp only [wrap32_of_isS32 hrestS, wrap32_of_isS32 htS, wrap32_of_isS32 hvS]

/-- A multiple m of 2^32 wrapped away from the first sum comes back as m units of the result (R85). -/
theorem combine_wrap32_sub_wide {c : Coeffs} {fr fg fb : Nat} {m : Int}
    (hm : weightedSum c fr fg fb + roundBias - wrap32 (weightedSum c fr fg fb + roundBias) = 2 ^ 32 * m) :
    (65536 : Int) ∣ combine .wrap32 c fr fg fb - (combine .wide c fr fg fb - m) := by
  unfold combine
  generalize weightedSum c fr fg fb + roundBias = rest at hm ⊢
  simp only
  -- The three wraps take multiples of 2^32 away, which the two shifts by 16 bring down to m plus multiples of 2^16.
  have ht := dvd_sub_wrap32 (wrap32 rest + asr (wrap32 rest) 16)
  have hv := dvd_sub_wrap32 (c.c0 + asr (wrap32 (wrap32 rest + asr (wrap32 rest) 16)) 16)
  unfold asr at *
  omega

/-- A weighted sum of u16 densities leaves s32 by less than 2^32, so it wraps at most once (R79, R80). -/
theorem wrap_count_of_sum_bounds {v m : Int} (hlo : -(65535 * 65535) ≤ v) (hhi : v ≤ 65535 * 65535)
    (hm : v + roundBias - wrap32 (v + roundBias) = 2 ^ 32 * m) : m = -1 ∨ m = 0 ∨ m = 1 := by
  have hS : IsS32 (wrap32 (v + roundBias)) := isS32_wrap32 _
  unfold IsS32 at hS
  unfold roundBias at *
  omega

/-- The rounded fold does not leave the range that c0 and the sum keep (R84). -/
theorem combine_wide_bounds {c : Coeffs} {fr fg fb : Nat} {lo hi : Int} (hlo : lo ≤ c.c0) (hhi : c.c0 ≤ hi)
    (hrange : hi - c.c0 ≤ 65535) (hwlo : 65535 * (lo - c.c0) ≤ weightedSum c fr fg fb)
    (hwhi : weightedSum c fr fg fb ≤ 65535 * (hi - c.c0)) :
    lo ≤ combine .wide c fr fg fb ∧ combine .wide c fr fg fb ≤ hi := by
  unfold combine asr roundBias
  generalize weightedSum c fr fg fb = w at *
  simp only
  omega

theorem combine_congr (mode : ArithMode) {c c' : Coeffs} {fr fg fb : Nat} (h0 : c.c0 = c'.c0)
    (hw : weightedSum c fr fg fb = weightedSum c' fr fg fb) : combine mode c fr fg fb = combine mode c' fr fg fb := by
  unfold combine
  rw [h0, hw]

theorem weightedSum_zero (c : Coeffs) : weightedSum c 0 0 0 = 0 := by
  simp only [weightedSum, Nat.cast_zero, mul_zero, add_zero]

/-- The bias alone rounds to nothing. -/
theorem combine_zero (mode : ArithMode) {c : Coeffs} (h0 : 0 ≤ c.c0) (h1 : c.c0 ≤ 65535) :
    combine mode c 0 0 0 = c.c0 := by
  have hw := weightedSum_zero c
  have hwide : combine .wide c 0 0 0 = c.c0 := by
    obtain ⟨hlo, hhi⟩ := combine_wide_bounds (fr := 0) (fg := 0) (fb := 0) (le_refl c.c0) (le_refl c.c0) (by omega)
      (by omega) (by omega)
    exact le_antisymm hhi hlo
  cases mode
  · rw [combine_wrap32_eq_wide h0 h1 (by omega) (by omega), hwide]
  · exact hwide

theorem c0_pathCoeffs (D : Corner → U16) (o : Axis × Axis × Axis) : (pathCoeffs D o).c0 = (D lowCorner).toNat := rfl

theorem c0_pathCoeffs_bounds (D : Corner → U16) (o : Axis × Axis × Axis) :
    0 ≤ (pathCoeffs D o).c0 ∧ (pathCoeffs D o).c0 ≤ 65535 := by
  have := (D lowCorner).isLt
  rw [c0_pathCoeffs]
  omega

/-! ## The weighted sum of a case -/

/-- At a tie two cases weigh the corners of their paths alike (R84). -/
theorem weightedSum_eq_of_tie {τ τ' : Tetra} {o o' : Axis × Axis × Axis} {fr fg fb : Nat} (ho : caseOrder τ = some o)
    (ho' : caseOrder τ' = some o') (h : Holds o fr fg fb) (h' : Holds o' fr fg fb) (D : Corner → U16) :
    weightedSum (pathCoeffs D o) fr fg fb = weightedSum (pathCoeffs D o') fr fg fb := by
  have hfirst : fracOf fr fg fb o.1 = fracOf fr fg fb o'.1 :=
    le_antisymm (fracOf_le_first ho' h' o.1) (fracOf_le_first ho h o'.1)
  have hlast : fracOf fr fg fb o.2.2 = fracOf fr fg fb o'.2.2 :=
    le_antisymm (last_le_fracOf ho h o'.2.2) (last_le_fracOf ho' h' o.2.2)
  have hmiddle : fracOf fr fg fb o.2.1 = fracOf fr fg fb o'.2.1 := by
    have hsum := sum_fracOf ho fr fg fb
    have hsum' := sum_fracOf ho' fr fg fb
    omega
  have hone : fracOf fr fg fb o.1 = fracOf fr fg fb o.2.1 ∨ afterFirst o = afterFirst o' := by
    by_cases heq : o'.1 = o.1
    · exact .inr (congrArg (stepUp lowCorner) heq.symm)
    · exact .inl (le_antisymm (hfirst.trans_le (fracOf_le_second ho h heq)) h.1)
  have htwo : fracOf fr fg fb o.2.1 = fracOf fr fg fb o.2.2 ∨ afterSecond o = afterSecond o' := by
    by_cases heq : o'.2.2 = o.2.2
    · exact .inr (by rw [afterSecond_of_case ho, afterSecond_of_case ho', heq])
    · exact .inl (le_antisymm ((second_le_fracOf ho h heq).trans_eq hlast.symm) h.2)
  rw [weightedSum_pathCoeffs ho, weightedSum_pathCoeffs ho', ← hfirst, ← hmiddle, ← hlast]
  rcases hone with hone | hone <;> rcases htwo with htwo | htwo <;> simp [hone, htwo]

/-- Values below a bound, under nonnegative weights that are at most 65535 in all. -/
theorem weighted_le {w1 w2 w3 x1 x2 x3 bound : Int} (hw1 : 0 ≤ w1) (hw2 : 0 ≤ w2) (hw3 : 0 ≤ w3)
    (hw : w1 + w2 + w3 ≤ 65535) (h0 : 0 ≤ bound) (h1 : x1 ≤ bound) (h2 : x2 ≤ bound) (h3 : x3 ≤ bound) :
    w1 * x1 + w2 * x2 + w3 * x3 ≤ 65535 * bound :=
  calc w1 * x1 + w2 * x2 + w3 * x3
      ≤ w1 * bound + w2 * bound + w3 * bound := by gcongr
    _ = (w1 + w2 + w3) * bound := by ring
    _ ≤ 65535 * bound := by gcongr

/-- The weights of a path are nonnegative and at most 65535 in all. -/
theorem weightedSum_bounds {D : Corner → U16} {fr fg fb : U16} {o : Axis × Axis × Axis} {lo hi : Int}
    (ho : caseOrder (classify fr.toNat fg.toNat fb.toNat) = some o)
    (hpath : ∀ c ∈ path o, lo ≤ (D c).toNat ∧ (D c).toNat ≤ hi) :
    65535 * (lo - (pathCoeffs D o).c0) ≤ weightedSum (pathCoeffs D o) fr.toNat fg.toNat fb.toNat ∧
      weightedSum (pathCoeffs D o) fr.toNat fg.toNat fb.toNat ≤ 65535 * (hi - (pathCoeffs D o).c0) := by
  obtain ⟨h12, h23⟩ := holds_of_caseOrder_classify ho
  have h1 : fracOf fr.toNat fg.toNat fb.toNat o.1 ≤ 65535 := by
    have := fr.isLt; have := fg.isLt; have := fb.isLt
    cases o.1 <;> simp only [fracOf] <;> omega
  rw [weightedSum_pathCoeffs ho, c0_pathCoeffs]
  simp only [path_of_case ho, List.forall_mem_cons] at hpath
  obtain ⟨⟨hlo0, hhi0⟩, ⟨hlo1, hhi1⟩, ⟨hlo2, hhi2⟩, ⟨hlo3, hhi3⟩, -⟩ := hpath
  zify at h1 h12 h23
  have hw1 := sub_nonneg.2 h12
  have hw2 := sub_nonneg.2 h23
  have hw3 := Int.natCast_nonneg (fracOf fr.toNat fg.toNat fb.toNat o.2.2)
  constructor
  · have hneg := weighted_le (bound := -(lo - (D lowCorner).toNat)) hw1 hw2 hw3 (by linarith) (by linarith)
      (neg_le_neg (sub_le_sub_right hlo1 _)) (neg_le_neg (sub_le_sub_right hlo2 _))
      (neg_le_neg (sub_le_sub_right hlo3 _))
    linarith
  · exact weighted_le hw1 hw2 hw3 (by linarith) (by linarith) (sub_le_sub_right hhi1 _) (sub_le_sub_right hhi2 _)
      (sub_le_sub_right hhi3 _)

/-! ## The whole command -/

/-- INTERP with its cube in the grid and its case's path written completes with the path's combination (R83). -/
theorem exec_interp_next {s : State} {r g b : Byte} {p : Samples} {o : Axis × Axis × Axis} {D : Nat → Corner → U16}
    (hcfg : CfgOK s) (hr : s.gs .r r = some p.r) (hg : s.gs .g g = some p.g) (hb : s.gs .b b = some p.b)
    (hcube : CubeInGrid s p) (ho : caseOrder (classify p.r.frac.toNat p.g.frac.toNat p.b.frac.toNat) = some o)
    (hD : ∀ k, k < s.noutN → ∀ c ∈ path o, s.dens (cornerIndex s p k c) = some (D k c)) :
    exec (.interp r g b) s = .next (complete (s.writeOut ((List.range s.noutN).map fun k => convert s.sat
      (combine s.params.arith (pathCoeffs (D k) o) p.r.frac.toNat p.g.frac.toNat p.b.frac.toNat)))) := by
  refine execInterp_next ((cfgOK_iff s).2 hcfg) hr hg hb ((inGrid_iff_cubeInGrid p s).2 hcube) fun k hk => ?_
  refine interpChannel_ok (coeffs_eq_pathCoeffs ho fun c hc => ?_)
  rw [cornerDensity_eq_densRead, densRead_ok, hD k hk c hc]

theorem exec_interp_of_not_cubeInGrid {s : State} {r g b : Byte} {p : Samples} (hc : s.cfgOK = true)
    (hr : s.gs .r r = some p.r) (hg : s.gs .g g = some p.g) (hb : s.gs .b b = some p.b) (hcube : ¬ CubeInGrid s p) :
    exec (.interp r g b) s = .next (raised 1 s) := by
  rw [exec_interp, execInterp, if_pos hc, fetchSamples_ok.2 ⟨hr, hg, hb⟩]
  exact if_neg fun hp => hcube ((inGrid_iff_cubeInGrid p s).1 hp)

/-- Where INTERP ends with LAST_OK, every channel had a value and OUT holds it. -/
theorem interpChannel_of_exec_interp {s t : State} {r g b : Byte} {p : Samples} (hr : s.gs .r r = some p.r)
    (hg : s.gs .g g = some p.g) (hb : s.gs .b b = some p.b) (h : exec (.interp r g b) s = .next t)
    (hok : t.lastOk = true) {k : Nat} (hk : k < s.noutN) :
    interpChannel (.interp r g b) s p k = .ok (t.outReg k) := by
  rw [exec_interp, execInterp, fetchSamples_ok.2 ⟨hr, hg, hb⟩] at h
  simp only at h
  split_ifs at h with hc hp
  · rcases outputChannels_cases (interpChannel (.interp r g b) s p) s with ⟨vs, hlen, hvs, hnext⟩ | ⟨_, e, -, -, hfault⟩
    · rw [hnext] at h
      cases h
      have hk' : k < vs.length := hlen ▸ hk
      exact (hvs k hk').trans (congrArg _ ((outReg_writeOut s vs k).trans (dif_pos hk')).symm)
    · rw [hfault] at h
      cases h
  · cases h
    cases hok
  · cases h
    cases hok

theorem coordOf_frac_zero (x : U16) (sel : Bool) : coordOf ⟨x, 0⟩ sel = x.toNat := by cases sel <;> rfl

/-- Coefficients that one reading of the corners gives, a reading that gives the same densities gives too. -/
theorem coeffs_mono {d d' : Corner → Except Fault U16} (hdd' : ∀ c v, d c = .ok v → d' c = .ok v) {τ : Tetra}
    {o : Axis × Axis × Axis} (ho : caseOrder τ = some o) {cs : Coeffs} (h : coeffs d τ = .ok cs) :
    coeffs d' τ = .ok cs := by
  obtain ⟨p, q, t, u, f, hcoeffs, -⟩ := coeffs_eq_readCorners ho
  rw [hcoeffs] at h ⊢
  unfold readCorners at h
  split at h
  · cases h
  split at h
  · cases h
  split at h
  · cases h
  split at h
  · cases h
  next _ _ hp _ _ hq _ _ ht _ _ hu =>
    cases h
    exact readCorners_ok (hdd' _ _ hp) (hdd' _ _ hq) (hdd' _ _ ht) (hdd' _ _ hu)

/-! ## The obligations -/

/-- Settles O32: the list is searched as `classify` tests its conditions. -/
theorem classifyTakesTheFirstCondition : Obligations.ClassifyTakesTheFirstCondition := by
  intro fr fg fb
  have hne := classify_ne_noCase fr fg fb
  refine ⟨?_, hne⟩
  simp only [classify_eq_ite, caseList, find?_decide_cons] at hne ⊢
  split_ifs at hne ⊢
  case neg => exact absurd rfl hne
  all_goals rfl

/-- Settles O33: each row of the table is its path, and a difference of two u16 is in range. -/
theorem cornerTableFollowsThePaths : Obligations.CornerTableFollowsThePaths := by
  intro d D
  refine ⟨fun τ o ho hd => ⟨coeffs_eq_pathCoeffs ho hd, rfl, ?_, fun a => ?_⟩, fun hlow => ?_⟩
  · rw [path_of_case ho]; rfl
  · have hD (c c' : Corner) :
        -65535 ≤ ((D c).toNat : Int) - (D c').toNat ∧ ((D c).toNat : Int) - (D c').toNat ≤ 65535 := by
      have := (D c).isLt
      have := (D c').isLt
      omega
    simp only [delta]
    split_ifs <;> exact hD _ _
  · unfold lowCorner at hlow
    simp only [coeffs, hlow]
    rfl

/-- Settles O34: a congruent s32 is what `wrap32` gives. -/
theorem combineFoldsWithTheBias : Obligations.CombineFoldsWithTheBias := by
  intro c fr fg fb rest t v
  constructor
  · rintro ⟨hrestS, hrest⟩ ⟨htS, ht⟩ ⟨hvS, hv⟩
    rw [fdiv_65536] at ht hv
    simp only [combine, weightedSum, roundBias, wrap32_eq_of_dvd hrestS hrest, wrap32_eq_of_dvd htS ht,
      wrap32_eq_of_dvd hvS hv]
  · rintro rfl
    rw [fdiv_65536, fdiv_65536]
    rfl

/-- Settles O35: both conversions modulo 2^16, the clamp first where SAT is set. -/
theorem convertTruncatesOrClamps : Obligations.ConvertTruncatesOrClamps :=
  fun v => ⟨toNat_convert_false v, toNat_convert_true v⟩

/-- Settles O30: `exec_interp_next` names the values written to OUT. -/
theorem interpReturnsTheInterpolatedPixel : Obligations.InterpReturnsTheInterpolatedPixel := by
  intro s r g b p o D hcfg hr hg hb hcube ho hD
  refine ⟨_, exec_interp_next hcfg hr hg hb hcube ho hD, fun k hk => ?_, fun k hk => ?_, rfl⟩
  · exact (outReg_map_range s _ k).trans (if_pos hk)
  · exact (outReg_map_range s _ k).trans (if_neg hk.not_gt)

/-- Settles O31: the range check comes before the channels. -/
theorem interpOutsideTheGridRaises : Obligations.InterpOutsideTheGridRaises :=
  fun s _ _ _ _ hcfg => exec_interp_of_not_cubeInGrid ((cfgOK_iff s).2 hcfg)

/-- Settles O37: every corner is the vertex, and with fractions 0 only c0 counts. -/
theorem vertexInputGivesTheStoredDensity : Obligations.VertexInputGivesTheStoredDensity := by
  intro s r g b x y z d hcfg hr hg hb hx hy hz hd
  have hnext := exec_interp_next (p := ⟨⟨x, 0⟩, ⟨y, 0⟩, ⟨z, 0⟩⟩) (o := (.r, .g, .b)) (D := fun k _ => d k) hcfg hr hg hb
    ⟨⟨hx, hx⟩, ⟨hy, hy⟩, hz, hz⟩ rfl fun k hk c _ => by simpa only [cornerIndex, coordOf_frac_zero] using hd k hk
  refine ⟨_, hnext, rfl, fun k hk => ((outReg_map_range s _ k).trans (if_pos hk)).trans ?_⟩
  obtain ⟨h0, h1⟩ := c0_pathCoeffs_bounds (fun _ => d k) (.r, .g, .b)
  exact (congrArg (convert s.sat) (combine_zero s.params.arith h0 h1)).trans (convert_toNat s.sat (d k))

/-- Settles O38: the weighted sums agree, and the rest of `combine` looks at c0 only. -/
theorem tiedCasesGiveTheSameResult : Obligations.TiedCasesGiveTheSameResult := by
  intro D fr fg fb τ τ' o o' c c' mode ho ho' h h' hc hc'
  rw [coeffs_eq_pathCoeffs ho (D := D) fun _ _ => rfl] at hc
  rw [coeffs_eq_pathCoeffs ho' (D := D) fun _ _ => rfl] at hc'
  cases hc
  cases hc'
  have hw := weightedSum_eq_of_tie ho ho' h h' D
  exact ⟨hw, combine_congr mode rfl hw⟩

/-- Settles O39: what the one channel reads the other reads, so their coefficients agree. -/
theorem equalChannelsGiveEqualOutputs : Obligations.EqualChannelsGiveEqualOutputs := by
  intro s t r g b p k k' hr hg hb hk hk' hdens h hok
  have hread (c : Corner) (v : U16) (hv : cornerDensity (.interp r g b) s p k c = .ok v) :
      cornerDensity (.interp r g b) s p k' c = .ok v := by
    rw [cornerDensity_eq_densRead, densRead_ok] at hv ⊢
    rw [← hdens, hv]
  have hout := interpChannel_of_exec_interp hr hg hb h hok hk
  have hout' := interpChannel_of_exec_interp hr hg hb h hok hk'
  obtain ⟨o, ho⟩ := exists_caseOrder_classify p.r.frac.toNat p.g.frac.toNat p.b.frac.toNat
  cases hcs : coeffs (cornerDensity (.interp r g b) s p k)
      (classify p.r.frac.toNat p.g.frac.toNat p.b.frac.toNat) with
  | error e => rw [interpChannel_of_error hcs] at hout; cases hout
  | ok cs =>
    rw [interpChannel_ok hcs] at hout
    rw [interpChannel_ok (coeffs_mono hread ho hcs), hout] at hout'
    exact Except.ok.inj hout'

/-- Settles O40: the path's weights keep the sum in range, and the rounded fold keeps the range. -/
theorem wideResultStaysBetweenTheCorners : Obligations.WideResultStaysBetweenTheCorners := by
  intro D fr fg fb lo hi o ho hpath v
  have hpath' : ∀ c ∈ path o, (lo.toNat : Int) ≤ (D c).toNat ∧ ((D c).toNat : Int) ≤ hi.toNat := by exact_mod_cast hpath
  obtain ⟨hlow, hhigh⟩ := hpath' lowCorner (List.mem_cons_self ..)
  obtain ⟨hwlo, hwhi⟩ := weightedSum_bounds ho hpath'
  have hhi := hi.isLt
  have hc0 := c0_pathCoeffs D o
  obtain ⟨hvlo, hvhi⟩ : (lo.toNat : Int) ≤ v ∧ v ≤ hi.toNat := combine_wide_bounds hlow hhigh (by omega) hwlo hwhi
  refine ⟨hvlo, hvhi, BitVec.eq_of_toNat_eq (Int.ofNat.inj ?_)⟩
  exact (toNat_convert_of_u16 true (by omega) (by omega)).trans (toNat_convert_of_u16 false (by omega) (by omega)).symm

/-- Settles O41: the band is `combine_wrap32_eq_wide`, and 32766 * 65535 lies in it. -/
theorem wrapAgreesWithWideInsideTheBand : Obligations.WrapAgreesWithWideInsideTheBand := by
  refine ⟨fun c fr fg fb => combine_wrap32_eq_wide, fun D fr fg fb o ho hpath => ?_⟩
  obtain ⟨h0, h1⟩ := c0_pathCoeffs_bounds D o
  have hc0 := c0_pathCoeffs D o
  obtain ⟨hlo, hhi⟩ := weightedSum_bounds (D := D) (lo := (D lowCorner).toNat - 32766)
    (hi := (D lowCorner).toNat + 32766) ho fun c hc => by have := hpath c hc; omega
  exact combine_wrap32_eq_wide h0 h1 (by omega) (by omega)

/-- Settles O42: the first sum wraps at most once, and each wrap moves the result by one unit. -/
theorem wrapIsWithinOneUnitOfWide : Obligations.WrapIsWithinOneUnitOfWide := by
  intro D fr fg fb o ho w x
  obtain ⟨h0, h1⟩ := c0_pathCoeffs_bounds D o
  obtain ⟨hlo, hhi⟩ := weightedSum_bounds (D := D) (lo := 0) (hi := 65535) ho fun c _ => by have := (D c).isLt; omega
  obtain ⟨m, hm⟩ := dvd_sub_wrap32 (weightedSum (pathCoeffs D o) fr.toNat fg.toNat fb.toNat + roundBias)
  have hw : w = x + BitVec.ofInt 16 (-m) := by
    rw [← convert_false_add]
    exact convert_false_eq_of_dvd (combine_wrap32_sub_wide hm)
  rcases wrap_count_of_sum_bounds (by omega) (by omega) hm with rfl | rfl | rfl
  · exact .inr (.inl hw)
  · exact .inl (hw.trans (BitVec.add_zero x))
  · have hback : BitVec.ofInt 16 (-1) + 1 = 0 := by decide
    exact .inr (.inr (by rw [hw, BitVec.add_assoc, hback, add_zero]))

end Sys2Proof.Machine
end

section
/-! What an error leaves behind: a state that differs from the one before it in STATUS only (60_exceptions.md R86, R87,
R89). -/

namespace Sys2Proof.Machine

open Sys2Proof.Spec

/-! ## The states an error leaves -/

theorem raiseError_eq_raised (c : ErrorCode) (s : State) : raiseError c s = raised c.code s := rfl

/-- The codes that are raised are 1, 2 and 3 (R86). -/
theorem raiseError_eq_raised_one_or_two_or_three (c : ErrorCode) (s : State) :
    raiseError c s = raised 1 s ∨ raiseError c s = raised 2 s ∨ raiseError c s = raised 3 s := by
  cases c with
  | gridAccessOutOfRange => exact .inl (raiseError_eq_raised _ s)
  | illegalCommand => exact .inr (.inl (raiseError_eq_raised _ s))
  | badConfig => exact .inr (.inr (raiseError_eq_raised _ s))

/-- LAST_OK = 0 rules out completion, so the command raised an error. -/
theorem exists_eq_raiseError_of_exec {i : Instr} {s t : State} (h : exec i s = .next t) (hok : t.lastOk = false) :
    ∃ c, t = raiseError c s := by
  rcases exec_next h with hc | herr
  · obtain ⟨hdone, -, -⟩ := status_of_completed hc
    exact absurd hdone (Bool.eq_false_iff.1 hok)
  · exact herr

/-- A word given to Execute raises ILLEGAL_COMMAND or is a command (R62). -/
theorem exists_eq_raiseError_of_execute {w : Word} {s t : State} (h : execute w s = .next t) (hok : t.lastOk = false) :
    ∃ c, t = raiseError c s := by
  cases hdec : decode w with
  | error _ =>
    rw [execute_of_illegal (fun i hi => nomatch hdec.symm.trans hi)] at h
    cases h
    exact ⟨.illegalCommand, rfl⟩
  | ok i => exact exists_eq_raiseError_of_exec ((execute_of_decode hdec s).symm.trans h) hok

/-! ## The obligations -/

/-- Settles O15: `raiseError_eq_raised` at each code. -/
theorem raiseErrorKeepsTheFirstCode : Obligations.RaiseErrorKeepsTheFirstCode :=
  fun s => ⟨raiseError_eq_raised .gridAccessOutOfRange s, raiseError_eq_raised .illegalCommand s,
    raiseError_eq_raised .badConfig s⟩

/-- Settles O16: a next state with LAST_OK = 0 is one an error leaves, for a command and for any word. -/
theorem erroneousCommandChangesOnlyStatus : Obligations.ErroneousCommandChangesOnlyStatus := by
  refine ⟨fun i s t h hok => ?_, fun w s t h hok => ?_⟩
  · obtain ⟨c, rfl⟩ := exists_eq_raiseError_of_exec h hok
    exact raiseError_eq_raised_one_or_two_or_three c s
  · obtain ⟨c, rfl⟩ := exists_eq_raiseError_of_execute h hok
    exact raiseError_eq_raised_one_or_two_or_three c s

end Sys2Proof.Machine
end

section
/-! Proofs for 70_reset_and_hazards.md: a reset of the running block (R100), and that with CfgOK and full tables no command
stops (R102), since every entry it reads is one the host has written. -/

namespace Sys2Proof.Machine

open Sys2Proof.Spec

/-! ## Full tables -/

theorem exists_gs_of_tablesFull {s : State} (hfull : s.TablesFull) (a : Axis) (i : Byte) : ∃ e, s.gs a i = some e :=
  Option.isSome_iff_exists.1 (hfull.samples a i)

/-- A density of a vertex in the grid is one of the table, so it is written. -/
theorem exists_dens_of_tablesFull {s : State} (hfull : s.TablesFull) {x y z k : Nat} (hx : x < s.gridN .r)
    (hy : y < s.gridN .g) (hz : z < s.gridN .b) (hk : k < s.noutN) : ∃ v, s.dens (s.densIndex x y z k) = some v :=
  Option.isSome_iff_exists.1 (hfull.densities _ (densIndex_lt hx hy hz hk))

theorem coordOf_lt {e : GridSample} {n : Nat} (h : e.base.toNat < n ∧ upperOf e < n) (sel : Bool) : coordOf e sel < n := by
  obtain ⟨hbase, hupper⟩ := h
  cases sel with
  | false => exact hbase
  | true => exact hupper

/-- Every corner of a cube in the grid is a vertex of the grid (R76). -/
theorem exists_cornerDens_of_tablesFull {s : State} (hfull : s.TablesFull) {p : Samples} (hcube : CubeInGrid s p) {k : Nat}
    (hk : k < s.noutN) (c : Corner) : ∃ v, s.dens (cornerIndex s p k c) = some v := by
  obtain ⟨hr, hg, hb⟩ := hcube
  exact exists_dens_of_tablesFull hfull (coordOf_lt hr c.sx) (coordOf_lt hg c.sy) (coordOf_lt hb c.sz) hk

/-! ## The commands on full tables -/

theorem exec_build_completes {s : State} (hgrid : GridOK s) : ∃ t, exec .build s = .next t ∧ t.lastOk = true :=
  ⟨complete (buildSamples s), if_pos ((gridOK_iff s).2 hgrid), rfl⟩

/-- LOOKUP reads the densities of its vertex only. -/
theorem exec_lookup_completes_of_tablesFull {s : State} (hcfg : CfgOK s) (hfull : s.TablesFull) {x y z : Byte}
    (hv : s.vertexInGrid x.toNat y.toNat z.toNat = true) : ∃ t, exec (.lookup x y z) s = .next t ∧ t.lastOk = true := by
  obtain ⟨hx, hy, hz⟩ := (vertexInGrid_iff s _ _ _).1 hv
  choose! d hd using fun k (hk : k < s.noutN) => exists_dens_of_tablesFull hfull hx hy hz hk
  exact ⟨_, execLookup_next ((cfgOK_iff s).2 hcfg) hv hd, rfl⟩

theorem exec_lookup_runs_of_tablesFull {s : State} (hcfg : CfgOK s) (hfull : s.TablesFull) (x y z : Byte) :
    ∃ t, exec (.lookup x y z) s = .next t := by
  by_cases hv : s.vertexInGrid x.toNat y.toNat z.toNat = true
  · obtain ⟨t, ht, -⟩ := exec_lookup_completes_of_tablesFull hcfg hfull hv
    exact ⟨t, ht⟩
  · exact ⟨_, exec_lookup_of_not_inGrid ((cfgOK_iff s).2 hcfg) hv⟩

/-- INTERP with its cube in the grid has every corner to read; with a cube outside it raises before it reads one (R76). -/
theorem exec_interp_runs_of_tablesFull {s : State} (hcfg : CfgOK s) (hfull : s.TablesFull) (r g b : Byte) :
    ∃ t, exec (.interp r g b) s = .next t := by
  obtain ⟨er, hr⟩ := exists_gs_of_tablesFull hfull .r r
  obtain ⟨eg, hg⟩ := exists_gs_of_tablesFull hfull .g g
  obtain ⟨eb, hb⟩ := exists_gs_of_tablesFull hfull .b b
  by_cases hcube : CubeInGrid s ⟨er, eg, eb⟩
  · obtain ⟨o, ho⟩ := exists_caseOrder_classify er.frac.toNat eg.frac.toNat eb.frac.toNat
    choose! D hD using fun k (hk : k < s.noutN) => exists_cornerDens_of_tablesFull hfull hcube hk
    exact ⟨_, exec_interp_next hcfg hr hg hb hcube ho fun k hk c _ => hD k hk c⟩
  · exact ⟨_, exec_interp_of_not_cubeInGrid (p := ⟨er, eg, eb⟩) ((cfgOK_iff s).2 hcfg) hr hg hb hcube⟩

/-! ## The obligations -/

/-- Settles O45, command by command. -/
theorem fullTablesLetEveryCommandRun : Obligations.FullTablesLetEveryCommandRun := by
  intro s hcfg hfull
  have hbuild : ∃ t, exec .build s = .next t ∧ t.lastOk = true := exec_build_completes hcfg.1
  refine ⟨fun i => ?_, hbuild, fun x y z hx hy hz => ?_⟩
  · cases i with
    | nop => exact ⟨_, exec_nop s⟩
    | interp r g b => exact exec_interp_runs_of_tablesFull hcfg hfull r g b
    | lookup x y z => exact exec_lookup_runs_of_tablesFull hcfg hfull x y z
    | build =>
      obtain ⟨t, ht, -⟩ := hbuild
      exact ⟨t, ht⟩
  · exact exec_lookup_completes_of_tablesFull hcfg hfull ((vertexInGrid_iff s _ _ _).2 ⟨hx, hy, hz⟩)

/-- Settles O11: the step performs `resetBlock`, whose memory is empty and whose registers are those after reset. -/
theorem resetEventResetsTheBlock : Obligations.ResetEventResetsTheBlock := by
  intro s rest hp
  exact ⟨resetBlock { s with pending := rest }, step_cons hp, rfl, fun _ _ => rfl, fun _ => rfl,
    statusWord_atReset s.params, rfl⟩

end Sys2Proof.Machine
end

section
/-! Proofs about the model's form of a memory (log entry 9): the cells of a canonical memory are its written bytes, so what
it reads determines it. -/

namespace Sys2Proof.Machine

/-- The written bytes of a canonical memory are exactly its cells. -/
theorem Memory.mem_iff_byte_eq_some {m : Memory} (hm : m.wf) (c : Host.Cell) : c ∈ m ↔ m.byte c.1 = some c.2 :=
  ⟨Memory.byte_of_mem hm, Memory.mem_of_byte⟩

/-- Settles O14: two memories that read alike list the same cells, and strictly rising lists with the same members are
equal. -/
theorem memoriesThatReadAlikeAreEqual : Obligations.MemoriesThatReadAlikeAreEqual := by
  intro m m' hm hm' hread
  have hcells (c : Host.Cell) : c ∈ m ↔ c ∈ m' := by
    rw [Memory.mem_iff_byte_eq_some hm, Memory.mem_iff_byte_eq_some hm', hread]
  have hasymm : Std.Asymm fun c d : Host.Cell => c.1 < d.1 := ⟨fun _ _ => Nat.lt_asymm⟩
  exact hm.eq_of_mem_iff hm' hcells

end Sys2Proof.Machine
end
